-- ==== Sys2Proof/Word.lean ====
section
/-! DEFINITION. The word types of the machine (spec 00_scope R7, R9, R10). Arithmetic on `Word` is
`BitVec` arithmetic, hence modulo 2^16 as R10 and R115 ask. -/

namespace Sys2Proof

/-- The 16-bit word: every register, every cell of memory and every address (R10). -/
abbrev Word := BitVec 16

/-- A byte, the unit of the console ports (R205 to R207) and of the program image (R221). -/
abbrev Byte := BitVec 8

end Sys2Proof
end

