-- ==== Sys2Proof/Syntax.lean ====
section
/-! DEFINITION. The instructions, one constructor per row of spec/opcode_table.json, in the order of
the 25 cases of the decode table (spec 30_encoding R87). Unused bits are no part of an instruction
(R86). -/

namespace Sys2Proof

/-- The eight general-purpose registers (R21). -/
inductive Reg where
  | r0 | r1 | r2 | r3 | r4 | r5 | r6 | r7
  deriving DecidableEq, Repr

/-- An instruction. Offsets and immediates keep their encoded width; they are sign-extended where they
are used (R85). -/
inductive Instr where
  /-- BR, format BR_F (R120). -/
  | br (n z p : Bool) (off : BitVec 9)
  /-- ADD, register form, format OP_REG (R110). -/
  | addReg (dr sr1 sr2 : Reg)
  /-- ADD, immediate form, format OP_IMM (R111). -/
  | addImm (dr sr1 : Reg) (imm : BitVec 5)
  /-- LD, format PCREL (R130). -/
  | ld (dr : Reg) (off : BitVec 9)
  /-- ST, format PCREL (R140). -/
  | st (sr : Reg) (off : BitVec 9)
  /-- JSR, offset form, format JSR_OFF (R122). -/
  | jsr (off : BitVec 11)
  /-- JSRR, the register form of JSR, format JSR_REG (R123). -/
  | jsrr (base : Reg)
  /-- AND, register form, format OP_REG (R112). -/
  | andReg (dr sr1 sr2 : Reg)
  /-- AND, immediate form, format OP_IMM (R113). -/
  | andImm (dr sr1 : Reg) (imm : BitVec 5)
  /-- LDR, format BASE_OFF (R132). -/
  | ldr (dr base : Reg) (off : BitVec 6)
  /-- STR, format BASE_OFF (R142). -/
  | str (sr base : Reg) (off : BitVec 6)
  /-- RTI, format NONE_F (R171). -/
  | rti
  /-- NOT, format NOT_F (R114). -/
  | notReg (dr sr : Reg)
  /-- LDI, format PCREL (R131). -/
  | ldi (dr : Reg) (off : BitVec 9)
  /-- STI, format PCREL (R141). -/
  | sti (sr : Reg) (off : BitVec 9)
  /-- JMP, format JMP_F (R121). -/
  | jmp (base : Reg)
  /-- RES, format NONE_F (R170). -/
  | res
  /-- LEA, format PCREL (R133). -/
  | lea (dr : Reg) (off : BitVec 9)
  /-- TRAP x20, GETC (R152). -/
  | getc
  /-- TRAP x21, OUT (R153). -/
  | out
  /-- TRAP x22, PUTS (R154). -/
  | puts
  /-- TRAP x23, IN (R155). -/
  | inChar
  /-- TRAP x24, PUTSP (R156). -/
  | putsp
  /-- TRAP x25, HALT (R157). -/
  | halt
  /-- TRAP with a vector that is none of 0x20 to 0x25 (R158). -/
  | trapUnrecognised (vect : BitVec 8)
  deriving DecidableEq, Repr

/-- `RET`, another spelling of `JMP R7` (R92). -/
abbrev Instr.ret : Instr := .jmp .r7

/-- `NOP`, another spelling of the BR that tests no flag and has offset 0 (R92). -/
abbrev Instr.nop : Instr := .br false false false 0

end Sys2Proof
end

