-- ==== Sys2Proof/WellFormed.lean ====
section
/-! DEFINITION. Which terms of `Instr` are instructions. Register selectors, offsets and immediates are
well formed by their types (spec 30_encoding R84, R85); one check is left. -/

namespace Sys2Proof

/-- The six recognised trap vectors are 0x20 to 0x25 (R7, R151). -/
def recognisedVector (v : BitVec 8) : Bool := decide (0x20 ≤ v.toNat ∧ v.toNat ≤ 0x25)

/-- `trapUnrecognised` carries a vector that is not one of the six (R87 case 25, R158); every other
term is well formed. -/
def Instr.wf : Instr → Bool
  | .br _ _ _ _ => true
  | .addReg _ _ _ => true
  | .addImm _ _ _ => true
  | .ld _ _ => true
  | .st _ _ => true
  | .jsr _ => true
  | .jsrr _ => true
  | .andReg _ _ _ => true
  | .andImm _ _ _ => true
  | .ldr _ _ _ => true
  | .str _ _ _ => true
  | .rti => true
  | .notReg _ _ => true
  | .ldi _ _ => true
  | .sti _ _ => true
  | .jmp _ => true
  | .res => true
  | .lea _ _ => true
  | .getc => true
  | .out => true
  | .puts => true
  | .inChar => true
  | .putsp => true
  | .halt => true
  | .trapUnrecognised v => !recognisedVector v

end Sys2Proof
end

