-- ==== Sys2Proof/Decode.lean ====
section
/-! DEFINITION. Decoding and encoding (spec 30_encoding R80 to R92). The opcode numbers are R82's table
(the standard LC-3 assignment, the spec's decision D1: log 10). Decode is total: every word is one of
the 25 cases of R87. -/

namespace Sys2Proof

/-- The sixteen opcode slots (R82). -/
inductive Opcode where
  | br | add | ld | st | jsr | and | ldr | str | rti | not | ldi | sti | jmp | res | lea | trap
  deriving DecidableEq, Repr

/-- The opcode that bits 15, 14, 13, 12 select, in R82's numbering. -/
def Opcode.ofBits (b15 b14 b13 b12 : Bool) : Opcode :=
  match b15, b14, b13, b12 with
  | false, false, false, false => .br
  | false, false, false, true => .add
  | false, false, true, false => .ld
  | false, false, true, true => .st
  | false, true, false, false => .jsr
  | false, true, false, true => .and
  | false, true, true, false => .ldr
  | false, true, true, true => .str
  | true, false, false, false => .rti
  | true, false, false, true => .not
  | true, false, true, false => .ldi
  | true, false, true, true => .sti
  | true, true, false, false => .jmp
  | true, true, false, true => .res
  | true, true, true, false => .lea
  | true, true, true, true => .trap

/-- The register a 3-bit selector names: field value i selects Ri (R84). -/
def Reg.ofBits (b2 b1 b0 : Bool) : Reg :=
  match b2, b1, b0 with
  | false, false, false => .r0
  | false, false, true => .r1
  | false, true, false => .r2
  | false, true, true => .r3
  | true, false, false => .r4
  | true, false, true => .r5
  | true, true, false => .r6
  | true, true, true => .r7

/-- The 3-bit selector of a register (R84). -/
def Reg.toBits : Reg → BitVec 3
  | .r0 => 0
  | .r1 => 1
  | .r2 => 2
  | .r3 => 3
  | .r4 => 4
  | .r5 => 5
  | .r6 => 6
  | .r7 => 7

/-- `inst[15:12]` (R81). -/
def opcode (w : Word) : Opcode :=
  Opcode.ofBits (w.getLsbD 15) (w.getLsbD 14) (w.getLsbD 13) (w.getLsbD 12)

/-- The register field `inst[11:9]`: DR, or SR of the stores (R84). -/
def regA (w : Word) : Reg := Reg.ofBits (w.getLsbD 11) (w.getLsbD 10) (w.getLsbD 9)

/-- The register field `inst[8:6]`: SR1, SR of NOT, BaseR (R84). -/
def regB (w : Word) : Reg := Reg.ofBits (w.getLsbD 8) (w.getLsbD 7) (w.getLsbD 6)

/-- The register field `inst[2:0]`: SR2 (R84). -/
def regC (w : Word) : Reg := Reg.ofBits (w.getLsbD 2) (w.getLsbD 1) (w.getLsbD 0)

/-- `imm5 = inst[4:0]` (R85). -/
def imm5 (w : Word) : BitVec 5 := w.extractLsb' 0 5

/-- `offset6 = inst[5:0]` (R85). -/
def offset6 (w : Word) : BitVec 6 := w.extractLsb' 0 6

/-- `PCoffset9 = inst[8:0]` (R85). -/
def pcOffset9 (w : Word) : BitVec 9 := w.extractLsb' 0 9

/-- `PCoffset11 = inst[10:0]` (R85). -/
def pcOffset11 (w : Word) : BitVec 11 := w.extractLsb' 0 11

/-- `trapvect8 = inst[7:0]`, not extended (R85). -/
def trapVect8 (w : Word) : BitVec 8 := w.extractLsb' 0 8

/-- Cases 19 to 25 of R87: the instruction a trap vector selects (R150, R151). -/
def decodeTrap (v : BitVec 8) : Instr :=
  if v = 0x20 then .getc
  else if v = 0x21 then .out
  else if v = 0x22 then .puts
  else if v = 0x23 then .inChar
  else if v = 0x24 then .putsp
  else if v = 0x25 then .halt
  else .trapUnrecognised v

/-- The Decoder: the instruction a word is (R81, R83, R87). Bits no handler extracts take no part
(R86). -/
def decode (w : Word) : Instr :=
  match opcode w with
  | .br => .br (w.getLsbD 11) (w.getLsbD 10) (w.getLsbD 9) (pcOffset9 w)
  | .add => if w.getLsbD 5 then .addImm (regA w) (regB w) (imm5 w) else .addReg (regA w) (regB w) (regC w)
  | .ld => .ld (regA w) (pcOffset9 w)
  | .st => .st (regA w) (pcOffset9 w)
  | .jsr => if w.getLsbD 11 then .jsr (pcOffset11 w) else .jsrr (regB w)
  | .and => if w.getLsbD 5 then .andImm (regA w) (regB w) (imm5 w) else .andReg (regA w) (regB w) (regC w)
  | .ldr => .ldr (regA w) (regB w) (offset6 w)
  | .str => .str (regA w) (regB w) (offset6 w)
  | .rti => .rti
  | .not => .notReg (regA w) (regB w)
  | .ldi => .ldi (regA w) (pcOffset9 w)
  | .sti => .sti (regA w) (pcOffset9 w)
  | .jmp => .jmp (regB w)
  | .res => .res
  | .lea => .lea (regA w) (pcOffset9 w)
  | .trap => decodeTrap (trapVect8 w)

/-- Why a sequence of cells holds no instruction: it is empty. No word is refused (R87). -/
inductive DecodeRefusal where
  | noWord
  deriving DecidableEq, Repr

/-- The first instruction of a sequence of cells, and the cells after it: one cell each (R80). -/
def decodeCells : List Word → Except DecodeRefusal (Instr × List Word)
  | [] => .error .noWord
  | w :: rest => .ok (decode w, rest)

/-- The decoder on a row of the opcode table: `w` holds the bits of the word, bit 0 the least
significant. A word has 16 bits, so more than 16 are refused and the bits above `nbits` are zero. -/
def decodeTableWord (nbits w : Nat) : Option Instr :=
  if nbits ≤ 16 then
    match decodeCells [BitVec.ofNat 16 (w % 2 ^ nbits)] with
    | .ok (i, _) => some i
    | .error _ => none
  else none

/-- The canonical word of an instruction (R83, R91): unused bits are zero, but for NOT, whose bits
[5:0] are written as ones. -/
def encode : Instr → Word
  | .br n z p off => 0x0#4 ++ BitVec.ofBool n ++ BitVec.ofBool z ++ BitVec.ofBool p ++ off
  | .addReg dr sr1 sr2 => 0x1#4 ++ dr.toBits ++ sr1.toBits ++ 0#1 ++ 0#2 ++ sr2.toBits
  | .addImm dr sr1 imm => 0x1#4 ++ dr.toBits ++ sr1.toBits ++ 1#1 ++ imm
  | .ld dr off => 0x2#4 ++ dr.toBits ++ off
  | .st sr off => 0x3#4 ++ sr.toBits ++ off
  | .jsr off => 0x4#4 ++ 1#1 ++ off
  | .jsrr base => 0x4#4 ++ 0#1 ++ 0#2 ++ base.toBits ++ 0#6
  | .andReg dr sr1 sr2 => 0x5#4 ++ dr.toBits ++ sr1.toBits ++ 0#1 ++ 0#2 ++ sr2.toBits
  | .andImm dr sr1 imm => 0x5#4 ++ dr.toBits ++ sr1.toBits ++ 1#1 ++ imm
  | .ldr dr base off => 0x6#4 ++ dr.toBits ++ base.toBits ++ off
  | .str sr base off => 0x7#4 ++ sr.toBits ++ base.toBits ++ off
  | .rti => 0x8#4 ++ 0#12
  | .notReg dr sr => 0x9#4 ++ dr.toBits ++ sr.toBits ++ 0x3F#6
  | .ldi dr off => 0xA#4 ++ dr.toBits ++ off
  | .sti sr off => 0xB#4 ++ sr.toBits ++ off
  | .jmp base => 0xC#4 ++ 0#3 ++ base.toBits ++ 0#6
  | .res => 0xD#4 ++ 0#12
  | .lea dr off => 0xE#4 ++ dr.toBits ++ off
  | .getc => 0xF#4 ++ 0#4 ++ 0x20#8
  | .out => 0xF#4 ++ 0#4 ++ 0x21#8
  | .puts => 0xF#4 ++ 0#4 ++ 0x22#8
  | .inChar => 0xF#4 ++ 0#4 ++ 0x23#8
  | .putsp => 0xF#4 ++ 0#4 ++ 0x24#8
  | .halt => 0xF#4 ++ 0#4 ++ 0x25#8
  | .trapUnrecognised v => 0xF#4 ++ 0#4 ++ v

end Sys2Proof
end

