-- ==== Sys2Proof/Config.lean ====
section
/-! DEFINITION. The implementation parameters the source leaves open and a model takes as arguments
(spec 00_scope R8). They are plain data carried by the state (log 1), so a statement about every state
holds for every choice of them. RESET_PC, MEM_INIT and INPUT, the other parameters of R8, are the
arguments of `State.start` and `State.boot`. The free values of an infinite `INPUT` are here too. -/

namespace Sys2Proof

/-- The parameters that stay fixed during a run (R8). No instruction reads them other than as R51, R55
and R155 say, and none writes them. -/
structure Config where
  /-- `KBSR_ADDR`, the address of the keyboard-status cell (R8, R32). -/
  kbsrAddr : Word
  /-- `KBDR_ADDR`, the address of the keyboard-data cell (R8, R33). -/
  kbdrAddr : Word
  /-- `IN_PROMPT`, the bytes the IN trap writes first (R8, R155). -/
  inPrompt : List Byte
  deriving DecidableEq, Repr

/-- R8's one constraint: `KBDR_ADDR` is "different from `KBSR_ADDR`". -/
def Config.wf (c : Config) : Bool := c.kbsrAddr != c.kbdrAddr

/-- The default of `IN_PROMPT`: the 19 bytes of the ASCII text `Enter a character: `
(R8; DESIGN CHOICE, log 1). -/
def Config.defaultPrompt : List Byte :=
  [0x45, 0x6E, 0x74, 0x65, 0x72, 0x20, 0x61, 0x20, 0x63, 0x68, 0x61, 0x72, 0x61, 0x63, 0x74, 0x65,
    0x72, 0x3A, 0x20]

/-- The defaults R8 recommends (DESIGN CHOICE, log 1). -/
def Config.default : Config :=
  { kbsrAddr := 0xFE00, kbdrAddr := 0xFE02, inPrompt := Config.defaultPrompt }

/-- FREE VALUE (log 12): the bytes that are not zero of an infinite input, one for each number of bytes
taken before it. A statement about an input holds whatever this function is. -/
opaque Config.freeInputByte : Nat → Fin 255

/-- FREE VALUE (log 12): how many bytes that are not zero follow a zero byte of an infinite input before
the next zero byte; `none`: no zero byte comes any more. -/
opaque Config.freeInputGap : Nat → Option Nat

/-- FREE VALUE (log 12): how many polls an infinite sequence of answers answers "ready" after one it
answered "not ready", before the next of those; `none`: none comes any more. -/
opaque Config.freePollGap : Nat → Option Nat

end Sys2Proof
end

