-- ==== Sys2Proof/Machine/State.lean ====
section
/-! DEFINITION. The state of the machine as plain data: the tuple of spec 46_execution_loop R177
(R0..R7, pc, cond, run, memory, input source, output sink) and the fixed parameters of 00_scope R8.
What the host will answer at the console ports is plain data too (log 3, log 4, log 5), so that a step
is a function of the state and a statement about every state holds for every host. -/

namespace Sys2Proof.Machine

/-- One listed cell of memory: its address and its word. The cell of 16 bits is the smallest unit the
machine addresses (R31, R57; log 7). -/
abbrev MemCell := Nat × Word

/-- Memory (R31): the cells that do not hold what an unlisted cell reads as, in rising order of
address. The operations over it are in Machine/Ops.lean. -/
abbrev Memory := List MemCell

/-- The eight general-purpose registers (R21). -/
structure Regs where
  r0 : Word
  r1 : Word
  r2 : Word
  r3 : Word
  r4 : Word
  r5 : Word
  r6 : Word
  r7 : Word
  deriving DecidableEq, Repr

/-- The condition-flag register: exactly one of NEGATIVE, ZERO, POSITIVE (R26, R29). -/
inductive Cond where
  | n | z | p
  deriving DecidableEq, Repr

/-- The four causes of a fault of the machine (R190). -/
inductive FaultCause where
  | resOpcode | rtiOpcode | badTrapVector | ioFault
  deriving DecidableEq, Repr

/-- The run state (R30). -/
inductive RunState where
  | running
  | halted
  | faulted (cause : FaultCause)
  deriving DecidableEq, Repr

/-- What follows the last listed byte of the input source. -/
inductive InputEnding where
  /-- The source is exhausted and closed: a `ConsoleRead` fails (R194, R206). -/
  | closed
  /-- No byte comes and the source does not fail: a `ConsoleRead` waits (R208). -/
  | waits
  /-- An infinite source (R8): this byte is delivered for ever. -/
  | endless (b : Byte)
  /-- Any infinite source (R8). `count` counts the bytes taken; `zeroIn` says how many bytes come before
  the next zero byte, `none` that no zero byte comes. Its bytes are free values (log 12). -/
  | stream (count : Nat) (zeroIn : Option Nat)
  deriving DecidableEq, Repr

/-- How the host answers every poll after the listed answers (R205). -/
inductive PollTail where
  /-- Always this answer. -/
  | always (answer : Bool)
  /-- Any infinite sequence of answers (R8). `count` counts the answers taken; `notReadyIn` says how many
  "ready" come before the next "not ready", `none` that no "not ready" comes (log 12). -/
  | varying (count : Nat) (notReadyIn : Option Nat)
  deriving DecidableEq, Repr

/-- The console-input collaborator (R35(a), R205, R206). -/
structure InputSource where
  /-- The bytes not yet consumed, the next one first. -/
  bytes : List Byte
  /-- What follows them. -/
  ending : InputEnding
  /-- The host's answers to the next polls, the next one first. -/
  polls : List Bool
  /-- The host's answers to the polls after those. -/
  pollRest : PollTail
  deriving DecidableEq, Repr

/-- The console-output collaborator (R35(b), R207). -/
structure OutputSink where
  /-- The bytes written so far, in the order of the writes. -/
  written : List Byte
  /-- How many more bytes the sink accepts before it is unavailable; `none`: it never fails. -/
  room : Option Nat
  deriving DecidableEq, Repr

/-- The whole state (R177). -/
structure State where
  regs : Regs
  pc : Word
  cond : Cond
  run : RunState
  mem : Memory
  input : InputSource
  output : OutputSink
  /-- The implementation parameters (R8); nothing changes them. -/
  cfg : Config
  deriving DecidableEq, Repr

/-- Why there is no next state. These are the stuck states of the spec. A fault OF THE MACHINE (R190)
is no such thing: it is a next state whose `run` is `faulted`. -/
inductive Fault where
  /-- Raised by `step` on a halted machine: `HALTED` is terminal, there is no step (R177). Safe. -/
  | halted
  /-- Raised by `step` on a faulted machine: `FAULTED` is terminal, there is no step (R177, R196).
  Safe. -/
  | faulted (cause : FaultCause)
  /-- Raised by GETC and IN while the input source has no byte and has not failed: the step is enabled
  only when a byte can be delivered (R179, R208). Safe: the hardware waits there. -/
  | waitsForInput
  /-- Raised by PUTS and PUTSP on a string that no zero word ends: the routine never ends (R154, R156).
  Safe: the hardware never reaches a next instruction there. -/
  | stringNeverEnds
  deriving DecidableEq, Repr

/-- Why an instruction has no meaning. -/
inductive Refusal where
  /-- Raised by `exec` for an instruction that is not modelled yet; no arm raises it now. Safe. -/
  | notModelled (mnemonic : String)
  deriving DecidableEq, Repr

/-- What a step or a meaning answers. -/
abbrev Result := Host.Outcome State Fault Refusal

/-- The registers at reset: "all general-purpose registers zeroed" (R38). -/
def Regs.zero : Regs := ⟨0, 0, 0, 0, 0, 0, 0, 0⟩

/-- The machine as it enters `RUNNING` (R38, R220 step 3): registers zero, `cond = Z`, `run = RUNNING`,
`pc` the origin, memory as loaded, the whole of `INPUT`, an empty output sink. `room` is the output
part of the host's oracle (R194). -/
def State.start (cfg : Config) (resetPc : Word) (mem : Memory) (input : InputSource)
    (room : Option Nat) : State :=
  { regs := Regs.zero
    pc := resetPc
    cond := .z
    run := .running
    mem := mem
    input := input
    output := { written := [], room := room }
    cfg := cfg }

/-- No `INPUT` given: no byte, and none to come (DESIGN CHOICE, log 3, log 4). -/
def InputSource.empty : InputSource :=
  { bytes := [], ending := .closed, polls := [], pollRest := .always true }

/-- The machine right after reset with the defaults of R8, an empty image of the conventional origin
0x3000, and nothing at the console (R38; DESIGN CHOICE for the parameters: log 1, 2, 3, 4, 5, 6). -/
def State.reset : State := State.start Config.default 0x3000 [] InputSource.empty none

end Sys2Proof.Machine
end

