-- ==== Sys2Proof/Machine/Ops.lean ====
section
/-! DEFINITION. The named operations over registers, memory and the console ports (the primitives of
spec 00_scope R11), and fault entry (60_exceptions R191). There is no return from a fault to stand
beside it: `FAULTED` is terminal, and RTI itself faults (R196, R171). -/

namespace Sys2Proof.Machine

/-! ### General-purpose registers -/

/-- `x[r]` (R11, R21). -/
def Regs.get (x : Regs) : Reg → Word
  | .r0 => x.r0
  | .r1 => x.r1
  | .r2 => x.r2
  | .r3 => x.r3
  | .r4 => x.r4
  | .r5 => x.r5
  | .r6 => x.r6
  | .r7 => x.r7

/-- `x[r] <- v` (R11); no register is hard-wired (R21). -/
def Regs.set (x : Regs) (r : Reg) (v : Word) : Regs :=
  match r with
  | .r0 => { x with r0 := v }
  | .r1 => { x with r1 := v }
  | .r2 => { x with r2 := v }
  | .r3 => { x with r3 := v }
  | .r4 => { x with r4 := v }
  | .r5 => { x with r5 := v }
  | .r6 => { x with r6 := v }
  | .r7 => { x with r7 := v }

/-- The content of register `r`. -/
def State.reg (s : State) (r : Reg) : Word := s.regs.get r

/-- Write register `r`. -/
def State.setReg (s : State) (r : Reg) (v : Word) : State := { s with regs := s.regs.set r v }

/-- `pc <- target` (R11). -/
def State.setPc (s : State) (target : Word) : State := { s with pc := target }

/-- The fetch increment, modulo 2^16 (R25, R175). -/
def State.advance (s : State) : State := s.setPc (s.pc + 1)

/-- `x[7] <- pc`: JSR, JSRR and TRAP write the link register (R23). -/
def State.link (s : State) : State := s.setReg .r7 s.pc

/-! ### Memory as data -/

/-- What a cell that nothing lists reads as: `MEM_INIT`, 0x0000 by default (R38; log 2). -/
def Memory.unlisted : Word := 0

/-- The stored word at an address. -/
def Memory.read : Memory → Nat → Word
  | [], _ => Memory.unlisted
  | (k, v) :: rest, a => if k = a then v else Memory.read rest a

/-- The memory without a listed cell at `a`. -/
def Memory.unlist (m : Memory) (a : Nat) : Memory := m.filter fun c => c.1 != a

/-- List a cell at its place in the order of addresses. -/
def Memory.listCell (a : Nat) (v : Word) : Memory → Memory
  | [] => [(a, v)]
  | (k, w) :: rest => if a < k then (a, v) :: (k, w) :: rest else (k, w) :: Memory.listCell a v rest

/-- Write one cell, keeping the canonical form: the word an unlisted cell reads as is not listed. -/
def Memory.write (m : Memory) (a : Nat) (v : Word) : Memory :=
  if v = Memory.unlisted then m.unlist a else Memory.listCell a v (m.unlist a)

/-- The cells from address `lo` on are in canonical form: addresses rising, inside the address space of
R31, and no cell that holds what an unlisted one reads as. -/
def Memory.wfFrom (lo : Nat) : Memory → Bool
  | [] => true
  | (k, v) :: rest =>
    decide (lo ≤ k) && decide (k < 65536) && v != Memory.unlisted && Memory.wfFrom (k + 1) rest

/-- Memory is in its one canonical form. -/
def Memory.wf (m : Memory) : Bool := Memory.wfFrom 0 m

/-! ### Cells -/

/-- The stored cell `M[a]`, looked at without a read of the machine (R51's notation). -/
def State.cell (s : State) (a : Word) : Word := s.mem.read a.toNat

/-- `M[a] <- v`. -/
def State.setCell (s : State) (a v : Word) : State := { s with mem := s.mem.write a.toNat v }

/-! ### Bytes and words -/

/-- `w[7:0]` (R9). -/
def lowByte (w : Word) : Byte := w.extractLsb' 0 8

/-- `w[15:8]` (R9). -/
def highByte (w : Word) : Byte := w.extractLsb' 8 8

/-- `zext_8(b)` (R11). -/
def zext8 (b : Byte) : Word := b.setWidth 16

/-- The word of two bytes, `hi ++ lo` (R9). -/
def wordOfBytes (hi lo : Byte) : Word := hi ++ lo

/-! ### The console ports -/

/-- A byte that is not zero, a free value (log 12). -/
def freeNonZeroByte (count : Nat) : Byte := BitVec.ofNat 8 ((Config.freeInputByte count).val + 1)

/-- The byte after the listed ones, if one exists. -/
def InputEnding.next : InputEnding → Option Byte
  | .closed => none
  | .waits => none
  | .endless b => some b
  | .stream _ (some 0) => some 0
  | .stream count (some (_ + 1)) => some (freeNonZeroByte count)
  | .stream count none => some (freeNonZeroByte count)

/-- The ending after that byte is taken. -/
def InputEnding.drop : InputEnding → InputEnding
  | .closed => .closed
  | .waits => .waits
  | .endless b => .endless b
  | .stream count (some 0) => .stream (count + 1) (Config.freeInputGap count)
  | .stream count (some (k + 1)) => .stream (count + 1) (some k)
  | .stream count none => .stream (count + 1) none

/-- The answer to the next poll after the listed answers. -/
def PollTail.answer : PollTail → Bool
  | .always answer => answer
  | .varying _ (some 0) => false
  | .varying _ (some (_ + 1)) => true
  | .varying _ none => true

/-- The tail after that answer is taken. -/
def PollTail.drop : PollTail → PollTail
  | .always answer => .always answer
  | .varying count (some 0) => .varying (count + 1) (Config.freePollGap count)
  | .varying count (some (k + 1)) => .varying (count + 1) (some k)
  | .varying count none => .varying (count + 1) none

/-- The next byte of the input source, if one exists (R205, R206). -/
def InputSource.next (i : InputSource) : Option Byte :=
  match i.bytes with
  | b :: _ => some b
  | [] => i.ending.next

/-- The source after its next byte is taken: each byte is delivered once, in order (R35, R206). -/
def InputSource.drop (i : InputSource) : InputSource :=
  match i.bytes with
  | _ :: rest => { i with bytes := rest }
  | [] => { i with ending := i.ending.drop }

/-- The host's answer to the next poll (R205). -/
def InputSource.answer (i : InputSource) : Bool :=
  match i.polls with
  | answer :: _ => answer
  | [] => i.pollRest.answer

/-- The source after one poll is answered. -/
def InputSource.dropPoll (i : InputSource) : InputSource :=
  match i.polls with
  | _ :: rest => { i with polls := rest }
  | [] => { i with pollRest := i.pollRest.drop }

/-- `ConsolePoll()` (R205): the host's answer, under the one constraint that "ready" is answered only
when a next byte exists. It never blocks and never faults. -/
def InputSource.ready (i : InputSource) : Bool := i.answer && i.next.isSome

/-- What a poll that takes the byte it finds (R51, R52) answers: that byte, and the source after. -/
def InputSource.poll (i : InputSource) : Option Byte × InputSource :=
  if i.ready then (i.next, i.dropPoll.drop) else (none, i.dropPoll)

/-- What `ConsoleRead()` answers (R206). -/
inductive ReadAnswer where
  /-- The next byte, which is consumed. -/
  | byte (b : Byte) (i : InputSource)
  /-- The source is exhausted for good: the read fails (R194). -/
  | fails
  /-- No byte yet, and no failure: the read waits (R208). -/
  | waits
  deriving DecidableEq, Repr

/-- `ConsoleRead()` (R206). -/
def InputSource.read (i : InputSource) : ReadAnswer :=
  match i.next with
  | some b => .byte b i.drop
  | none => if i.ending = .closed then .fails else .waits

/-- How many bytes that are not zero the source delivers before it delivers a zero byte or has none;
`none`: it delivers such bytes for ever. -/
def InputSource.textLeft (i : InputSource) : Option Nat :=
  match i.bytes.findIdx? (· == 0), i.ending with
  | some k, _ => some k
  | none, .closed => some i.bytes.length
  | none, .waits => some i.bytes.length
  | none, .endless b => if b = 0 then some i.bytes.length else none
  | none, .stream _ zeroIn => zeroIn.map (i.bytes.length + ·)

/-- How many polls the host answers "ready" before it answers one "not ready"; `none`: it answers all
"ready". -/
def InputSource.pollsLeft (i : InputSource) : Option Nat :=
  match i.polls.findIdx? (· == false), i.pollRest with
  | some k, _ => some k
  | none, .always answer => if answer then none else some i.polls.length
  | none, .varying _ notReadyIn => notReadyIn.map (i.polls.length + ·)

/-- Whether the output sink accepts `n` more bytes. -/
def OutputSink.accepts (o : OutputSink) (n : Nat) : Bool :=
  match o.room with
  | none => true
  | some k => decide (n ≤ k)

/-- `ConsoleWrite(b)` (R207): the byte is appended; `none` when the sink is unavailable (R194). -/
def OutputSink.write (o : OutputSink) (b : Byte) : Option OutputSink :=
  match o.room with
  | none => some { o with written := o.written ++ [b] }
  | some 0 => none
  | some (k + 1) => some { written := o.written ++ [b], room := some k }

/-- Several `ConsoleWrite`s in order. The answer says whether all succeeded; bytes written before a
failure stay written (R191). -/
def OutputSink.writeAll (o : OutputSink) : List Byte → Bool × OutputSink
  | [] => (true, o)
  | b :: rest =>
    match o.write b with
    | some o' => OutputSink.writeAll o' rest
    | none => (false, o)

/-- Replace the input source. -/
def State.setInput (s : State) (i : InputSource) : State := { s with input := i }

/-- Replace the output sink. -/
def State.setOutput (s : State) (o : OutputSink) : State := { s with output := o }

/-! ### The memory primitives -/

/-- The poll that a read of `KBSR_ADDR` performs (R51, R52): with a byte, KBSR becomes 0x8000 and KBDR
the byte, which is consumed; without one, KBSR becomes 0x0000 and KBDR is left alone. -/
def State.pollKeyboard (s : State) : State :=
  match s.input.poll with
  | (some b, i) =>
    ((s.setInput i).setCell s.cfg.kbsrAddr 0x8000).setCell s.cfg.kbdrAddr (zext8 b)
  | (none, i) => (s.setInput i).setCell s.cfg.kbsrAddr 0x0000

/-- `MemRead(a, 1)` (R50, R51): the word read and the state after the read. -/
def State.memRead (s : State) (a : Word) : Word × State :=
  if a = s.cfg.kbsrAddr then (s.pollKeyboard.cell a, s.pollKeyboard) else (s.cell a, s)

/-- `MemWrite(a, 1, v)` (R53): stored verbatim at any address, the device addresses included. -/
def State.memWrite (s : State) (a v : Word) : State := s.setCell a v

/-- The fetch of a cycle: an ordinary `MemRead` at `pc`, then the increment (R55, R175). -/
def State.fetch (s : State) : Word × State := ((s.memRead s.pc).1, (s.memRead s.pc).2.advance)

/-! ### The run state -/

/-- Fault entry, `raise Fault(cause)` (R191): the run state changes and nothing else does. -/
def State.raiseFault (s : State) (cause : FaultCause) : State := { s with run := .faulted cause }

/-- `run <- HALTED` (R157). -/
def State.enterHalted (s : State) : State := { s with run := .halted }

end Sys2Proof.Machine
end

