-- ==== Sys2Proof/Machine/Flags.lean ====
section
/-! DEFINITION. The flag-update rule and the branch test (spec 10_state R27, 41_control R120). -/

namespace Sys2Proof.Machine

/-- The flag a value projects to: ZERO if it is 0, NEGATIVE if the high bit is set, POSITIVE otherwise
(R27). -/
def condOf (v : Word) : Cond := if v = 0 then .z else if v.msb then .n else .p

/-- `setcc(v)` (R11, R27). -/
def State.setcc (s : State) (v : Word) : State := { s with cond := condOf v }

/-- Write a destination register and set the flags from the value written: the tail of ADD, AND, NOT,
LD, LDI, LDR and LEA (R28). -/
def State.writeResult (s : State) (dr : Reg) (v : Word) : State := (s.setReg dr v).setcc v

/-- BR's `taken`: some tested flag is the one that is set (R120). -/
def branchTaken (n z p : Bool) (c : Cond) : Bool :=
  match c with
  | .n => n
  | .z => z
  | .p => p

end Sys2Proof.Machine
end

