-- ==== Sys2Proof/Machine/Operands.lean ====
section
/-! DEFINITION. The operand forms: sign extension (spec 30_encoding R85) and the effective addresses of
the addressing modes (42_load R134). During an instruction `pc` is the incremented value (46 R176). -/

namespace Sys2Proof.Machine

/-- `sext_N(v)` (R11, R85). -/
def sext {n : Nat} (v : BitVec n) : Word := v.signExtend 16

/-- PC-relative with PCoffset9: LD, ST, LEA, BR, and the pointer of LDI and STI (R134, R120). -/
def State.pcRel9 (s : State) (off : BitVec 9) : Word := s.pc + sext off

/-- PC-relative with PCoffset11: JSR (R122). -/
def State.pcRel11 (s : State) (off : BitVec 11) : Word := s.pc + sext off

/-- Base plus offset6: LDR and STR (R134). -/
def State.baseOff (s : State) (base : Reg) (off : BitVec 6) : Word := s.reg base + sext off

end Sys2Proof.Machine
end

