-- ==== Sys2Proof/Machine/Control.lean ====
section
/-! DEFINITION. BR, JMP, JSR, JSRR (spec 41_control R120 to R124). They touch no memory, write no flag
and never fault. -/

namespace Sys2Proof.Machine

/-- BR (R120): relative to the incremented `pc`. -/
def execBr (n z p : Bool) (off : BitVec 9) (s : State) : Result :=
  .next (if branchTaken n z p s.cond then s.setPc (s.pcRel9 off) else s)

/-- JMP (R121). -/
def execJmp (base : Reg) (s : State) : Result := .next (s.setPc (s.reg base))

/-- JSR, offset form (R122). -/
def execJsr (off : BitVec 11) (s : State) : Result := .next (s.link.setPc (s.pcRel11 off))

/-- JSRR (R123): the base register is read AFTER the link is written, so `JSRR R7` falls through
(the spec's decision D7, log 10). -/
def execJsrr (base : Reg) (s : State) : Result := .next (s.link.setPc (s.link.reg base))

end Sys2Proof.Machine
end

