-- ==== Sys2Proof/Machine/Illegal.lean ====
section
/-! DEFINITION. RES and RTI, the two opcodes that are not implemented and fault (spec 45_illegal R170
to R172). -/

namespace Sys2Proof.Machine

/-- RES (R170). -/
def execRes (s : State) : Result := .next (s.raiseFault .resOpcode)

/-- RTI (R171): nothing is popped or restored. -/
def execRti (s : State) : Result := .next (s.raiseFault .rtiOpcode)

end Sys2Proof.Machine
end

