-- ==== Sys2Proof/Machine/Load.lean ====
section
/-! DEFINITION. LD, LDI, LDR, LEA (spec 42_load R130 to R134). No address is invalid, so none faults
(20_memory R54). -/

namespace Sys2Proof.Machine

/-- Read the cell at `ea`, write it to `dr` and set the flags from it: the tail of LD, LDI and LDR. -/
def State.loadFrom (s : State) (dr : Reg) (ea : Word) : State :=
  (s.memRead ea).2.writeResult dr (s.memRead ea).1

/-- LD (R130). -/
def execLd (dr : Reg) (off : BitVec 9) (s : State) : Result :=
  .next (s.loadFrom dr (s.pcRel9 off))

/-- LDI (R131): the pointer is read first, then the cell it names. -/
def execLdi (dr : Reg) (off : BitVec 9) (s : State) : Result :=
  .next ((s.memRead (s.pcRel9 off)).2.loadFrom dr (s.memRead (s.pcRel9 off)).1)

/-- LDR (R132): the base is read before the destination is written. -/
def execLdr (dr base : Reg) (off : BitVec 6) (s : State) : Result :=
  .next (s.loadFrom dr (s.baseOff base off))

/-- LEA (R133): the address, not the content; the flags are set from it (C4). -/
def execLea (dr : Reg) (off : BitVec 9) (s : State) : Result :=
  .next (s.writeResult dr (s.pcRel9 off))

end Sys2Proof.Machine
end

