-- ==== Sys2Proof/Machine/Operate.lean ====
section
/-! DEFINITION. ADD, AND, NOT (spec 40_operate R110 to R115). They touch no memory and never fault. -/

namespace Sys2Proof.Machine

/-- ADD, register form (R110). -/
def execAddReg (dr sr1 sr2 : Reg) (s : State) : Result :=
  .next (s.writeResult dr (s.reg sr1 + s.reg sr2))

/-- ADD, immediate form (R111). -/
def execAddImm (dr sr1 : Reg) (imm : BitVec 5) (s : State) : Result :=
  .next (s.writeResult dr (s.reg sr1 + sext imm))

/-- AND, register form (R112). -/
def execAndReg (dr sr1 sr2 : Reg) (s : State) : Result :=
  .next (s.writeResult dr (s.reg sr1 &&& s.reg sr2))

/-- AND, immediate form (R113). -/
def execAndImm (dr sr1 : Reg) (imm : BitVec 5) (s : State) : Result :=
  .next (s.writeResult dr (s.reg sr1 &&& sext imm))

/-- NOT (R114). -/
def execNotReg (dr sr : Reg) (s : State) : Result :=
  .next (s.writeResult dr (~~~ s.reg sr))

end Sys2Proof.Machine
end

