-- ==== Sys2Proof/Machine/Store.lean ====
section
/-! DEFINITION. ST, STI, STR (spec 43_store R140 to R142). They write no register and no flag, and
never fault. -/

namespace Sys2Proof.Machine

/-- ST (R140). -/
def execSt (sr : Reg) (off : BitVec 9) (s : State) : Result :=
  .next (s.memWrite (s.pcRel9 off) (s.reg sr))

/-- STI (R141): one read, of the pointer, then one write. -/
def execSti (sr : Reg) (off : BitVec 9) (s : State) : Result :=
  .next ((s.memRead (s.pcRel9 off)).2.memWrite (s.memRead (s.pcRel9 off)).1 (s.reg sr))

/-- STR (R142). -/
def execStr (sr base : Reg) (off : BitVec 6) (s : State) : Result :=
  .next (s.memWrite (s.baseOff base off) (s.reg sr))

end Sys2Proof.Machine
end

