-- ==== Sys2Proof/Machine/Trap.lean ====
section
/-! DEFINITION. TRAP and its routines (spec 44_trap R150 to R159). Every vector, recognised or not,
writes R7 first (R150); a routine runs to its end within the instruction and leaves `pc` and `cond`
alone. A failing console operation raises the I/O fault where it stands (60_exceptions R194), keeping
what came before it (R191). -/

namespace Sys2Proof.Machine

/-- GETC, vector 0x20 (R152): wait for a byte; its code goes to R0. -/
def execGetc (s : State) : Result :=
  match s.link.input.read with
  | .byte b i => .next ((s.link.setInput i).setReg .r0 (zext8 b))
  | .fails => .next (s.link.raiseFault .ioFault)
  | .waits => .fault .waitsForInput

/-- `ConsoleWrite` each byte in order; go on if all succeed, else the I/O fault. -/
def State.writeThen (s : State) (bytes : List Byte) (cont : State → Result) : Result :=
  match s.output.writeAll bytes with
  | (true, o) => cont (s.setOutput o)
  | (false, o) => .next ((s.setOutput o).raiseFault .ioFault)

/-- OUT, vector 0x21 (R153): the low byte of R0. -/
def execOut (s : State) : Result :=
  s.link.writeThen [lowByte (s.link.reg .r0)] .next

/-- The loop of PUTS and PUTSP (R154, R156): from address `a`, read a cell; a zero word ends the
string; else write the bytes it stands for and go on at `a + 1`, modulo 2^16. -/
def stringLoop (bytesOf : Word → List Byte) : Nat → Word → State → Result
  | 0, _, _ => .fault .stringNeverEnds
  | fuel + 1, a, s =>
    if (s.memRead a).1 = 0 then .next (s.memRead a).2
    else (s.memRead a).2.writeThen (bytesOf (s.memRead a).1) (stringLoop bytesOf fuel (a + 1))

/-- How many cells to read before a string is known never to end. Every 65536 reads pass `KBSR_ADDR`,
where a poll answered "not ready" ends the string and a zero byte put into KBDR ends it in the lap after;
where neither ever comes two laps find every other zero, and a bounded sink fails within its room
(log 8). -/
def State.stringFuel (s : State) : Nat :=
  65536 * (s.input.pollsLeft.getD 0 + s.input.textLeft.getD 0 + 2) + s.output.room.getD 0 + 1

/-- PUTS writes the low byte of each cell (R154). -/
def putsBytes (w : Word) : List Byte := [lowByte w]

/-- PUTS, vector 0x22 (R154). -/
def execPuts (s : State) : Result :=
  stringLoop putsBytes s.link.stringFuel (s.link.reg .r0) s.link

/-- IN, vector 0x23 (R155): prompt, wait for a byte, echo it, store it in R0. -/
def execInChar (s : State) : Result :=
  s.link.writeThen s.cfg.inPrompt fun t =>
    match t.input.read with
    | .byte b i => (t.setInput i).writeThen [b] fun u => .next (u.setReg .r0 (zext8 b))
    | .fails => .next (t.raiseFault .ioFault)
    | .waits => .fault .waitsForInput

/-- PUTSP writes the low byte of each cell and then the high byte if it is not zero (R156). -/
def putspBytes (w : Word) : List Byte :=
  if highByte w = 0 then [lowByte w] else [lowByte w, highByte w]

/-- PUTSP, vector 0x24 (R156). -/
def execPutsp (s : State) : Result :=
  stringLoop putspBytes s.link.stringFuel (s.link.reg .r0) s.link

/-- HALT, vector 0x25 (R157). -/
def execHalt (s : State) : Result := .next s.link.enterHalted

/-- TRAP with an unrecognised vector (R158): R7 is written, then the fault. -/
def execTrapUnrecognised (_vect : BitVec 8) (s : State) : Result :=
  .next (s.link.raiseFault .badTrapVector)

end Sys2Proof.Machine
end

