-- ==== Sys2Proof/Machine/Step.lean ====
section
/-! DEFINITION. One cycle of the execution loop (spec 46_execution_loop R175 to R177). -/

namespace Sys2Proof.Machine

/-- The cycle (R175): fetch, increment, decode, dispatch. From a terminal state there is no step
(R177). -/
def step (s : State) : Host.Outcome State Fault Refusal :=
  match s.run with
  | .running => exec (decode s.fetch.1) s.fetch.2
  | .halted => .fault .halted
  | .faulted cause => .fault (.faulted cause)

/-- `s` with the instruction word `w` in the cell the next cycle fetches from, so that `step` runs it
(log 6). A fetch from `KBSR_ADDR` runs what the poll leaves there and no stored word (R55), so if `pc` is
that address the word goes to the cell after it and `pc` with it; a machine that has ended is set
running. -/
def State.withFetchWord (s : State) (nbits w : Nat) : State :=
  let pc := if s.pc = s.cfg.kbsrAddr then s.pc + 1 else s.pc
  ({ s with pc := pc, run := .running }).setCell pc (BitVec.ofNat 16 (w % 2 ^ nbits))

end Sys2Proof.Machine
end

