-- ==== Sys2Proof/Machine/Image.lean ====
section
/-! DEFINITION. The loader at its interface: the image format, its placement and its errors, and the
machine at the start of a run (spec 70_reset_and_hazards R220 to R225). -/

namespace Sys2Proof.Machine

/-- A program image: its origin word and the words to load (R221). -/
structure Image where
  origin : Word
  words : List Word
  deriving DecidableEq, Repr

/-- Why an image does not load: there is then no reset and no run (R192, R223). -/
inductive LoadError where
  /-- Fewer than two bytes: no origin word. The source does not say what a loader does then (D22);
  refused (log 9). Safe. -/
  | noOrigin
  /-- An odd number of bytes (D22); refused (log 9). Safe. -/
  | oddLength
  /-- The image would load past address 65535 (R223). Safe: the spec refuses it. -/
  | overflow
  deriving DecidableEq, Repr

/-- Pairs of bytes as big-endian words, the first byte of a pair being bits [15:8] (R57, R221). -/
def wordsOfBytes : List Byte → Except LoadError (List Word)
  | [] => .ok []
  | [_] => .error .oddLength
  | hi :: lo :: rest =>
    match wordsOfBytes rest with
    | .ok ws => .ok (wordOfBytes hi lo :: ws)
    | .error e => .error e

/-- Read an image file's bytes (R221). -/
def Image.parse (file : List Byte) : Except LoadError Image :=
  match file with
  | hi :: lo :: rest =>
    match wordsOfBytes rest with
    | .ok ws => .ok { origin := wordOfBytes hi lo, words := ws }
    | .error e => .error e
  | [] => .error .noOrigin
  | [_] => .error .noOrigin

/-- The image does not reach past address 65535: `origin + n ≤ 65536` (R223). -/
def Image.fits (g : Image) : Bool := decide (g.origin.toNat + g.words.length ≤ 65536)

/-- Write words to consecutive cells from address `a` on (R222). -/
def Memory.place (m : Memory) (a : Nat) : List Word → Memory
  | [] => m
  | w :: rest => Memory.place (m.write a w) (a + 1) rest

/-- Load one image over `MEM_INIT` and reset the machine (R220): the origin is the first `pc` (R224).
An image that overflows is refused whole. -/
def State.boot (cfg : Config) (memInit : Memory) (g : Image) (input : InputSource)
    (room : Option Nat) : Except LoadError State :=
  if g.fits then .ok (State.start cfg g.origin (memInit.place g.origin.toNat g.words) input room)
  else .error .overflow

/-- The same from the bytes of the image file (R221). -/
def State.bootFile (cfg : Config) (memInit : Memory) (file : List Byte) (input : InputSource)
    (room : Option Nat) : Except LoadError State :=
  match Image.parse file with
  | .ok g => State.boot cfg memInit g input room
  | .error e => .error e

end Sys2Proof.Machine
end

