-- ==== Sys2Proof/Safety.lean ====
section
/-! DEFINITION. The terms in which statements about the machine are made: the invariant of every run,
what an instruction leaves unchanged, and a run that never faults. -/

namespace Sys2Proof.Machine

/-! ### The invariant and safe runs -/

/-- The invariant of the machine: memory is in canonical form (so that equal contents are equal data)
and the two device addresses differ (spec 00_scope R8). -/
def State.Inv (s : State) : Prop := s.mem.wf = true ∧ s.cfg.wf = true

/-- The machine has ended (R30). -/
def State.Terminal (s : State) : Prop := s.run ≠ .running

/-- The machine has ended in `FAULTED` (R30, R191). -/
def State.IsFaulted (s : State) : Prop := ∃ c, s.run = .faulted c

/-- A safe run: none of the states the first `k` steps reach is `FAULTED` (R180). -/
def State.FaultFree (k : Nat) (s : State) : Prop :=
  ∀ j t, j ≤ k → Host.Core.run Sys2Proof.core j s = .next t → ¬ t.IsFaulted

/-! ### Frames -/

/-- Every register outside the list holds what it held. -/
def SameRegsExcept (rs : List Reg) (s t : State) : Prop := ∀ r, r ∉ rs → t.reg r = s.reg r

/-- Every cell of memory outside the list reads as before. -/
def SameCellsExcept (as : List Word) (s t : State) : Prop := ∀ a, a ∉ as → t.cell a = s.cell a

/-- Neither console collaborator has moved. -/
def SameConsole (s t : State) : Prop := t.input = s.input ∧ t.output = s.output

/-- Run state and parameters are as before. -/
def SameControl (s t : State) : Prop := t.run = s.run ∧ t.cfg = s.cfg

/-- Memory, console, run state and parameters are as before: an instruction that only works on
registers. -/
def RegisterOnly (s t : State) : Prop := SameCellsExcept [] s t ∧ SameConsole s t ∧ SameControl s t

/-- The cells a read of address `a` may change: the two device cells if `a` is `KBSR_ADDR`, else none
(R50, R51). -/
def State.cellsTouchedByRead (s : State) (a : Word) : List Word :=
  if a = s.cfg.kbsrAddr then [s.cfg.kbsrAddr, s.cfg.kbdrAddr] else []

/-! ### Values -/

/-- The flag says the sign of a value, read as signed 16-bit two's complement (R10, R27). -/
def Cond.Describes (c : Cond) (v : Word) : Prop :=
  match c with
  | .n => v.toInt < 0
  | .z => v.toInt = 0
  | .p => 0 < v.toInt

/-- From address `a` on stand the non-zero words `cs` and then a zero word, and none of these cells is
the keyboard-status cell: a string for PUTS and PUTSP that polls nothing (R154, R156). -/
def State.HasString (s : State) (a : Word) (cs : List Word) : Prop :=
  (∀ k (h : k < cs.length), s.cell (a + BitVec.ofNat 16 k) = cs[k] ∧ cs[k] ≠ 0) ∧
  s.cell (a + BitVec.ofNat 16 cs.length) = 0 ∧
  ∀ k, k ≤ cs.length → a + BitVec.ofNat 16 k ≠ s.cfg.kbsrAddr

/-- Successive reads from address `a` on give the words `cs`, none of them zero, and take the machine
from `s` to `u`; a read at `KBSR_ADDR` polls (R55). -/
def ReadsWords : List Word → Word → State → State → Prop
  | [], _, s, u => u = s
  | c :: cs, a, s, u => (s.memRead a).1 = c ∧ c ≠ 0 ∧ ReadsWords cs (a + 1) (s.memRead a).2 u

/-- Successive reads from address `a` on give the words `cs` and then zero, and leave the machine at `u`:
any string for PUTS and PUTSP, wherever it passes (R154, R156). -/
def ReadsText (cs : List Word) (a : Word) (s u : State) : Prop :=
  ∃ v, ReadsWords cs a s v ∧ v.memRead (a + BitVec.ofNat 16 cs.length) = (0, u)

/-- No string ends here: no cell but the two device cells holds zero, the host answers every poll "ready",
and the source delivers bytes that are not zero for ever (R154). -/
def State.EndlessText (s : State) : Prop :=
  (∀ a, a ≠ s.cfg.kbsrAddr → a ≠ s.cfg.kbdrAddr → s.cell a ≠ 0) ∧ s.input.pollsLeft = none ∧
    s.input.textLeft = none

/-- A later state of an input source: some bytes were taken from its front, each once and in order, and
some polls answered (R35). -/
def InputSource.Later (i j : InputSource) : Prop :=
  ∃ k l, j = InputSource.drop^[k] (InputSource.dropPoll^[l] i)

/-- The same machine with other memory. -/
def State.withMemory (s : State) (m : Memory) : State := { s with mem := m }

/-- The same machine with `p` written to the output sink beforehand. -/
def State.withEarlierOutput (s : State) (p : List Byte) : State :=
  { s with output := { s.output with written := p ++ s.output.written } }

end Sys2Proof.Machine

namespace Sys2Proof

/-! ### Tables of the spec -/

/-- The registers an instruction writes (R22). -/
def Instr.writes : Instr → List Reg
  | .br _ _ _ _ => []
  | .addReg dr _ _ => [dr]
  | .addImm dr _ _ => [dr]
  | .ld dr _ => [dr]
  | .st _ _ => []
  | .jsr _ => [.r7]
  | .jsrr _ => [.r7]
  | .andReg dr _ _ => [dr]
  | .andImm dr _ _ => [dr]
  | .ldr dr _ _ => [dr]
  | .str _ _ _ => []
  | .rti => []
  | .notReg dr _ => [dr]
  | .ldi dr _ => [dr]
  | .sti _ _ => []
  | .jmp _ => []
  | .res => []
  | .lea dr _ => [dr]
  | .getc => [.r7, .r0]
  | .out => [.r7]
  | .puts => [.r7]
  | .inChar => [.r7, .r0]
  | .putsp => [.r7]
  | .halt => [.r7]
  | .trapUnrecognised _ => [.r7]

/-- The instructions that write the flags: ADD, AND, NOT, LD, LDI, LDR, LEA (R28). -/
def Instr.setsFlags : Instr → Bool
  | .br _ _ _ _ => false
  | .addReg _ _ _ => true
  | .addImm _ _ _ => true
  | .ld _ _ => true
  | .st _ _ => false
  | .jsr _ => false
  | .jsrr _ => false
  | .andReg _ _ _ => true
  | .andImm _ _ _ => true
  | .ldr _ _ _ => true
  | .str _ _ _ => false
  | .rti => false
  | .notReg _ _ => true
  | .ldi _ _ => true
  | .sti _ _ => false
  | .jmp _ => false
  | .res => false
  | .lea _ _ => true
  | .getc => false
  | .out => false
  | .puts => false
  | .inChar => false
  | .putsp => false
  | .halt => false
  | .trapUnrecognised _ => false

/-- The instructions that touch memory after the fetch: LD, LDI, LDR, ST, STI, STR, PUTS, PUTSP
(R56). -/
def Instr.touchesMemory : Instr → Bool
  | .br _ _ _ _ => false
  | .addReg _ _ _ => false
  | .addImm _ _ _ => false
  | .ld _ _ => true
  | .st _ _ => true
  | .jsr _ => false
  | .jsrr _ => false
  | .andReg _ _ _ => false
  | .andImm _ _ _ => false
  | .ldr _ _ _ => true
  | .str _ _ _ => true
  | .rti => false
  | .notReg _ _ => false
  | .ldi _ _ => true
  | .sti _ _ => true
  | .jmp _ => false
  | .res => false
  | .lea _ _ => false
  | .getc => false
  | .out => false
  | .puts => true
  | .inChar => false
  | .putsp => true
  | .halt => false
  | .trapUnrecognised _ => false

/-- TRAP, with any vector. -/
def Instr.isTrap : Instr → Bool
  | .br _ _ _ _ => false
  | .addReg _ _ _ => false
  | .addImm _ _ _ => false
  | .ld _ _ => false
  | .st _ _ => false
  | .jsr _ => false
  | .jsrr _ => false
  | .andReg _ _ _ => false
  | .andImm _ _ _ => false
  | .ldr _ _ _ => false
  | .str _ _ _ => false
  | .rti => false
  | .notReg _ _ => false
  | .ldi _ _ => false
  | .sti _ _ => false
  | .jmp _ => false
  | .res => false
  | .lea _ _ => false
  | .getc => true
  | .out => true
  | .puts => true
  | .inChar => true
  | .putsp => true
  | .halt => true
  | .trapUnrecognised _ => true

/-- Which of the 25 cases of the decode table an instruction is (R87). -/
def Instr.decodeCase : Instr → Nat
  | .br _ _ _ _ => 1
  | .addReg _ _ _ => 2
  | .addImm _ _ _ => 3
  | .ld _ _ => 4
  | .st _ _ => 5
  | .jsr _ => 6
  | .jsrr _ => 7
  | .andReg _ _ _ => 8
  | .andImm _ _ _ => 9
  | .ldr _ _ _ => 10
  | .str _ _ _ => 11
  | .rti => 12
  | .notReg _ _ => 13
  | .ldi _ _ => 14
  | .sti _ _ => 15
  | .jmp _ => 16
  | .res => 17
  | .lea _ _ => 18
  | .getc => 19
  | .out => 20
  | .puts => 21
  | .inChar => 22
  | .putsp => 23
  | .halt => 24
  | .trapUnrecognised _ => 25

/-- The bits of a word that its handler reads, the opcode among them (R83, R86); the others are
unused. -/
def Instr.usedBits : Instr → Word
  | .br _ _ _ _ => 0xFFFF
  | .addReg _ _ _ => 0xFFE7
  | .addImm _ _ _ => 0xFFFF
  | .ld _ _ => 0xFFFF
  | .st _ _ => 0xFFFF
  | .jsr _ => 0xFFFF
  | .jsrr _ => 0xF9C0
  | .andReg _ _ _ => 0xFFE7
  | .andImm _ _ _ => 0xFFFF
  | .ldr _ _ _ => 0xFFFF
  | .str _ _ _ => 0xFFFF
  | .rti => 0xF000
  | .notReg _ _ => 0xFFC0
  | .ldi _ _ => 0xFFFF
  | .sti _ _ => 0xFFFF
  | .jmp _ => 0xF1C0
  | .res => 0xF000
  | .lea _ _ => 0xFFFF
  | .getc => 0xF0FF
  | .out => 0xF0FF
  | .puts => 0xF0FF
  | .inChar => 0xF0FF
  | .putsp => 0xF0FF
  | .halt => 0xF0FF
  | .trapUnrecognised _ => 0xF0FF

/-- The decode table of R87: the case a word falls under, by its opcode field, its mode bit and its trap
vector. -/
def r87Case (w : Word) : Nat :=
  match (w.extractLsb' 12 4).toNat with
  | 0x0 => 1
  | 0x1 => if w.getLsbD 5 then 3 else 2
  | 0x2 => 4
  | 0x3 => 5
  | 0x4 => if w.getLsbD 11 then 6 else 7
  | 0x5 => if w.getLsbD 5 then 9 else 8
  | 0x6 => 10
  | 0x7 => 11
  | 0x8 => 12
  | 0x9 => 13
  | 0xA => 14
  | 0xB => 15
  | 0xC => 16
  | 0xD => 17
  | 0xE => 18
  | _ =>
    match (w.extractLsb' 0 8).toNat with
    | 0x20 => 19
    | 0x21 => 20
    | 0x22 => 21
    | 0x23 => 22
    | 0x24 => 23
    | 0x25 => 24
    | _ => 25

/-- R88: the words that are illegal: opcode RES, opcode RTI, and TRAP with a vector outside
0x20..0x25. -/
def illegalWord (w : Word) : Prop :=
  w.extractLsb' 12 4 = 0xD ∨ w.extractLsb' 12 4 = 0x8 ∨
  (w.extractLsb' 12 4 = 0xF ∧
    ((w.extractLsb' 0 8).toNat < 0x20 ∨ 0x25 < (w.extractLsb' 0 8).toNat))

end Sys2Proof
end

