-- ==== Sys2Proof/Certificates/Slice0/Obligations.lean ====
section
/-! DEFINITION. The statements about the model, made from the numbered rules of spec/. During an
instruction `pc` is the incremented value (46_execution_loop R176), so in a statement about `exec` the
state `s` already has it; `StepRunsDecodedInstruction` says how a step gets there. The opcode numbers,
the polarity of bit 5 and the order of the n, z, p bits in the decode clauses are R82's and R83's, which
are the spec's decisions D1, D3 and D4; what an answer of the console is, is decision D13 (log 10). -/

open Sys2Proof Sys2Proof.Machine

/-! ### Decoding and encoding -/

/-- 95_test_vectors, words of part 2: one word of every family is the instruction the spec says. The
words rest on the spec's opcode numbers, decision D1 (log 10). -/
def Obligations.DecodeSpecWords : Prop :=
  decode 0x1042 = .addReg .r0 .r1 .r2 ∧ decode 0x103B = .addImm .r0 .r0 0b11011 ∧
  decode 0x94BF = .notReg .r2 .r2 ∧ decode 0x03FD = .br false false true 0x1FD ∧
  decode 0x4804 = .jsr 4 ∧ decode 0x4080 = .jsrr .r2 ∧ decode 0xA605 = .ldi .r3 5 ∧
  decode 0x707E = .str .r0 .r1 0b111110 ∧ decode 0xF024 = .putsp ∧
  decode 0xF099 = .trapUnrecognised 0x99 ∧ decode 0x8ABC = .rti ∧ decode 0xDFFF = .res

/-- R83: no bit of an encoding is dropped: decoding an encoded well-formed instruction gives it back,
with every operand at every value. -/
def Obligations.DecodeEncodeRoundTrip : Prop :=
  ∀ i : Instr, i.wf = true → decode (encode i) = i

/-- R86: two words are the same instruction exactly when they agree on the bits its handler reads; that the
others are ignored is the spec's decision D6 (log 10). -/
def Obligations.DecodeIgnoresUnusedBits : Prop :=
  ∀ w w' : Word, decode w' = decode w ↔ w' &&& (decode w).usedBits = w &&& (decode w).usedBits

/-- R87: decode is total, and every word is the one of the 25 cases that the table says; what it is
decoded to is well formed. -/
def Obligations.DecodeFollowsTheTable : Prop :=
  ∀ w : Word, (decode w).decodeCase = r87Case w ∧ (decode w).wf = true

/-- R85: every immediate and offset is sign-extended from its width, unscaled: the 16-bit word has the
field's value as a signed number. The effective addresses are sums modulo 2^16 (R134). -/
def Obligations.OperandsSignExtend : Prop :=
  (∀ v : BitVec 5, (sext v).toInt = v.toInt) ∧ (∀ v : BitVec 6, (sext v).toInt = v.toInt) ∧
  (∀ v : BitVec 9, (sext v).toInt = v.toInt) ∧ (∀ v : BitVec 11, (sext v).toInt = v.toInt) ∧
  (∀ (s : State) (off : BitVec 9),
    ((s.pcRel9 off).toNat : Int) = ((s.pc.toNat : Int) + off.toInt) % 65536) ∧
  (∀ (s : State) (off : BitVec 11),
    ((s.pcRel11 off).toNat : Int) = ((s.pc.toNat : Int) + off.toInt) % 65536) ∧
  (∀ (s : State) (base : Reg) (off : BitVec 6),
    ((s.baseOff base off).toNat : Int) = (((s.reg base).toNat : Int) + off.toInt) % 65536)

/-- R88: an illegal word faults, by a decode fault, in every state; every other word is legal: if it
faults at all, it is by an I/O fault. -/
def Obligations.IllegalWordsFault : Prop :=
  ∀ (w : Word) (s : State), s.run = .running →
    (illegalWord w → ∃ t c, exec (decode w) s = .next t ∧ t.run = .faulted c ∧ c ≠ .ioFault) ∧
    (¬ illegalWord w → ∀ t, exec (decode w) s = .next t → ∀ c, t.run = .faulted c → c = .ioFault)

/-! ### The execution loop -/

/-- R175, R176: a cycle of the running machine fetches by a `MemRead` at `pc`, increments `pc` modulo
2^16, and runs the decoded instruction; where `pc` is not `KBSR_ADDR` the word fetched is the stored
one. -/
def Obligations.StepRunsDecodedInstruction : Prop :=
  ∀ s : State, s.run = .running →
    step s = exec (decode (s.memRead s.pc).1) ((s.memRead s.pc).2.setPc (s.pc + 1)) ∧
    (s.pc ≠ s.cfg.kbsrAddr → step s = exec (decode (s.cell s.pc)) (s.setPc (s.pc + 1)))

/-- R55: a fetch from `KBSR_ADDR` polls; with a byte ready it runs 0x8000, RTI, and faults, and without
one it runs 0x0000, a BR that never branches. That the fetch polls is the spec's decision D14
(log 10). -/
def Obligations.FetchFromStatusAddress : Prop :=
  ∀ s : State, s.run = .running → s.pc = s.cfg.kbsrAddr → s.cfg.wf = true →
    (s.input.ready = true → ∃ t, step s = .next t ∧ t.run = .faulted .rtiOpcode ∧
      t.pc = s.pc + 1 ∧ t.cell s.cfg.kbsrAddr = 0x8000 ∧
      (∃ b, s.input.next = some b ∧ t.cell s.cfg.kbdrAddr = zext8 b) ∧
      t.input = s.input.dropPoll.drop ∧ t.regs = s.regs ∧ t.cond = s.cond ∧
      t.output = s.output ∧ SameCellsExcept [s.cfg.kbsrAddr, s.cfg.kbdrAddr] s t) ∧
    (s.input.ready = false → ∃ t, step s = .next t ∧ t.run = .running ∧ t.pc = s.pc + 1 ∧
      t.cell s.cfg.kbsrAddr = 0x0000 ∧ t.input = s.input.dropPoll ∧ t.regs = s.regs ∧
      t.cond = s.cond ∧ t.output = s.output ∧ SameCellsExcept [s.cfg.kbsrAddr] s t)

/-- R177: from HALTED and from FAULTED there is no step. -/
def Obligations.TerminalStatesHaveNoStep : Prop :=
  ∀ s : State,
    (s.run = .halted → step s = .fault .halted) ∧
    (∀ c, s.run = .faulted c → step s = .fault (.faulted c))

/-- R30, R190: which instruction ends the run, and how. HALTED is entered by HALT alone; each decode
fault by its own instruction alone; an I/O fault only by a routine that uses the console. The four
causes are the spec's decision D18 (log 10). -/
def Obligations.RunStateTransitions : Prop :=
  ∀ (i : Instr) (s t : State), s.run = .running → exec i s = .next t →
    (t.run = .halted ↔ i = .halt) ∧
    (t.run = .faulted .resOpcode ↔ i = .res) ∧
    (t.run = .faulted .rtiOpcode ↔ i = .rti) ∧
    (t.run = .faulted .badTrapVector ↔ ∃ v, i = .trapUnrecognised v) ∧
    (t.run = .faulted .ioFault →
      i = .getc ∨ i = .out ∨ i = .puts ∨ i = .inChar ∨ i = .putsp)

/-- R65: a store is seen by the next fetch: ST, STI and STR whose effective address is that of the next
instruction write its cell, and the next cycle runs the stored word. A fetch from `KBSR_ADDR` polls and
runs no stored word (`FetchFromStatusAddress`). -/
def Obligations.StoreSeenByNextFetch : Prop :=
  ∀ s : State, s.run = .running → s.pc ≠ s.cfg.kbsrAddr →
    (∀ (sr : Reg) (off : BitVec 9), s.pcRel9 off = s.pc →
      ∃ t, exec (.st sr off) s = .next t ∧
        step t = exec (decode (s.reg sr)) (t.setPc (s.pc + 1))) ∧
    (∀ (sr : Reg) (off : BitVec 9), (s.memRead (s.pcRel9 off)).1 = s.pc →
      ∃ t, exec (.sti sr off) s = .next t ∧
        step t = exec (decode (s.reg sr)) (t.setPc (s.pc + 1))) ∧
    (∀ (sr base : Reg) (off : BitVec 6), s.baseOff base off = s.pc →
      ∃ t, exec (.str sr base off) s = .next t ∧
        step t = exec (decode (s.reg sr)) (t.setPc (s.pc + 1)))

/-! ### Reset and loading -/

/-- The machine right after reset with the model's defaults: R0 to R7 zero, ZERO, RUNNING (R38). The
origin 0x3000, the zero memory, the device addresses, the prompt and the empty console are the model's
choices (log 1 to log 6). -/
def Obligations.ResetState : Prop :=
  (∀ r, State.reset.reg r = 0) ∧ State.reset.cond = .z ∧ State.reset.run = .running ∧
  State.reset.pc = 0x3000 ∧ (∀ a, State.reset.cell a = 0) ∧
  State.reset.output.written = [] ∧ State.reset.output.room = none ∧
  State.reset.input = { bytes := [], ending := .closed, polls := [], pollRest := .always true } ∧
  State.reset.cfg.kbsrAddr = 0xFE00 ∧ State.reset.cfg.kbdrAddr = 0xFE02 ∧
  State.reset.cfg.inPrompt.length = 19

/-- R38, R220: the state a successful load of one image starts from: registers zero, `pc` the origin,
ZERO, RUNNING, the image's words from the origin on, every other cell `MEM_INIT`, the whole of `INPUT`,
an empty sink. That input and sink start so is the spec's decision D13 (log 10), and the sink's room is the
model's log 5. -/
def Obligations.BootState : Prop :=
  ∀ (cfg : Config) (m : Memory) (g : Image) (inp : InputSource) (room : Option Nat),
    g.origin.toNat + g.words.length ≤ 65536 →
    ∃ s, State.boot cfg m g inp room = .ok s ∧
      (∀ r, s.reg r = 0) ∧ s.pc = g.origin ∧ s.cond = .z ∧ s.run = .running ∧
      (∀ k (h : k < g.words.length), s.cell (g.origin + BitVec.ofNat 16 k) = g.words[k]) ∧
      (∀ a : Word, a.toNat < g.origin.toNat ∨ g.origin.toNat + g.words.length ≤ a.toNat →
        s.cell a = m.read a.toNat) ∧
      s.input = inp ∧ s.output.written = [] ∧ s.output.room = room ∧ s.cfg = cfg

/-- R223: an image that would load past address 65535 is refused, and there is no run. -/
def Obligations.OverflowingImageRefused : Prop :=
  ∀ (cfg : Config) (m : Memory) (g : Image) (inp : InputSource) (room : Option Nat),
    65536 < g.origin.toNat + g.words.length → State.boot cfg m g inp room = .error .overflow

/-- R57, R221: the image format: the origin word, then the words to load, each as two bytes, the more
significant byte first. -/
def Obligations.ImageFileBigEndian : Prop :=
  ∀ (origin : Word) (ws : List Word),
    Image.parse ((origin :: ws).flatMap fun w =>
        [BitVec.ofNat 8 (w.toNat / 256), BitVec.ofNat 8 (w.toNat % 256)])
      = .ok { origin := origin, words := ws }

/-- The invariant holds at reset. -/
def Obligations.ResetMeetsInvariant : Prop := State.reset.Inv

/-- Every successful load over a canonical `MEM_INIT`, with distinct device addresses, starts in the
invariant. -/
def Obligations.BootMeetsInvariant : Prop :=
  ∀ (cfg : Config) (m : Memory) (g : Image) (inp : InputSource) (room : Option Nat) (s : State),
    cfg.wf = true → m.wf = true → State.boot cfg m g inp room = .ok s → s.Inv

/-- Every step keeps the invariant, from every state that meets it: memory stays in its canonical form
and the device addresses stay what they are. -/
def Obligations.StepKeepsInvariant : Prop :=
  ∀ s t : State, s.Inv → step s = .next t → t.Inv ∧ t.cfg = s.cfg

/-! ### The memory primitives and the keyboard -/

/-- R50, R54: a `MemRead` of any address but `KBSR_ADDR`, KBDR included, returns the stored word and
changes nothing. -/
def Obligations.MemReadPlain : Prop :=
  ∀ (s : State) (a : Word), a ≠ s.cfg.kbsrAddr → s.memRead a = (s.cell a, s)

/-- R51, R52: a `MemRead` of `KBSR_ADDR` polls. With a byte ready it returns 0x8000, KBSR and KBDR are
refreshed together, and the byte is consumed; else it returns 0x0000 and KBDR is not changed. The exact words are
the spec's decision D12, the consumption its D13 (log 10). -/
def Obligations.MemReadStatusPolls : Prop :=
  ∀ s : State, s.cfg.wf = true →
    let v := (s.memRead s.cfg.kbsrAddr).1
    let t := (s.memRead s.cfg.kbsrAddr).2
    (s.input.ready = true → v = 0x8000 ∧ t.cell s.cfg.kbsrAddr = 0x8000 ∧
      (∃ b, s.input.next = some b ∧ (t.cell s.cfg.kbdrAddr).toNat = b.toNat) ∧
      t.input = s.input.dropPoll.drop ∧
      SameCellsExcept [s.cfg.kbsrAddr, s.cfg.kbdrAddr] s t) ∧
    (s.input.ready = false → v = 0x0000 ∧ t.cell s.cfg.kbsrAddr = 0x0000 ∧
      t.input = s.input.dropPoll ∧ SameCellsExcept [s.cfg.kbsrAddr] s t) ∧
    t.regs = s.regs ∧ t.pc = s.pc ∧ t.cond = s.cond ∧
    t.run = s.run ∧ t.output = s.output ∧ t.cfg = s.cfg

/-- R52: two reads of `KBSR_ADDR` with two bytes pending, both answered "ready", consume both bytes, and
only the second is left in KBDR (the spec's decision D13, log 10). -/
def Obligations.TwoPollsConsumeTwoBytes : Prop :=
  ∀ (s : State) (b c : Byte) (rest : List Byte), s.cfg.wf = true →
    s.input.bytes = b :: c :: rest → s.input.answer = true → s.input.dropPoll.answer = true →
    ((s.memRead s.cfg.kbsrAddr).2.memRead s.cfg.kbsrAddr).2.input.bytes = rest ∧
    ((s.memRead s.cfg.kbsrAddr).2.memRead s.cfg.kbsrAddr).2.cell s.cfg.kbdrAddr = zext8 c ∧
    ((s.memRead s.cfg.kbsrAddr).2.memRead s.cfg.kbsrAddr).1 = 0x8000

/-- R53: a `MemWrite` stores the word verbatim at any address, the device addresses included, and
changes no other state. -/
def Obligations.MemWriteVerbatim : Prop :=
  ∀ (s : State) (a v : Word),
    (s.memWrite a v).cell a = v ∧ SameCellsExcept [a] s (s.memWrite a v) ∧
    SameConsole s (s.memWrite a v) ∧ SameControl s (s.memWrite a v) ∧
    (s.memWrite a v).regs = s.regs ∧ (s.memWrite a v).pc = s.pc ∧ (s.memWrite a v).cond = s.cond

/-- R205: a poll answers "ready" only when the input source has a next byte; that apart, the answer is
the host's, which the model holds as `polls` and `pollRest` (the spec's decision D13, and the
model's log 4). -/
def Obligations.PollIsTruthful : Prop :=
  ∀ i : InputSource,
    (i.ready = true → ∃ b, i.next = some b) ∧
    (∀ b answer rest, i.next = some b → i.polls = answer :: rest → i.ready = answer) ∧
    (∀ b, i.next = some b → i.polls = [] → i.ready = i.pollRest.answer)

/-! ### Operate instructions and the flag rule -/

/-- R27: the flag rule: ZERO if the value is 0, NEGATIVE if the high bit is set, POSITIVE otherwise; the
flag is the sign of the value as a signed number. -/
def Obligations.FlagRule : Prop :=
  ∀ (s : State) (v : Word),
    (v = 0 → (s.setcc v).cond = .z) ∧ (v.getLsbD 15 = true → (s.setcc v).cond = .n) ∧
    (v ≠ 0 → v.getLsbD 15 = false → (s.setcc v).cond = .p) ∧ (s.setcc v).cond.Describes v

/-- R110: ADD, register form. -/
def Obligations.AddRegisterForm : Prop :=
  (∀ w : Word, w.extractLsb' 12 4 = 0b0001 → w.getLsbD 5 = false →
    ∃ dr sr1 sr2, decode w = .addReg dr sr1 sr2 ∧ dr.toBits = w.extractLsb' 9 3 ∧
      sr1.toBits = w.extractLsb' 6 3 ∧ sr2.toBits = w.extractLsb' 0 3) ∧
  ∀ (dr sr1 sr2 : Reg) (s : State), ∃ t, exec (.addReg dr sr1 sr2) s = .next t ∧
    (t.reg dr).toNat = ((s.reg sr1).toNat + (s.reg sr2).toNat) % 65536 ∧
    t.cond.Describes (t.reg dr) ∧ SameRegsExcept [dr] s t ∧ t.pc = s.pc ∧ RegisterOnly s t

/-- R111: ADD, immediate form. -/
def Obligations.AddImmediateForm : Prop :=
  (∀ w : Word, w.extractLsb' 12 4 = 0b0001 → w.getLsbD 5 = true →
    ∃ dr sr1, decode w = .addImm dr sr1 (w.extractLsb' 0 5) ∧ dr.toBits = w.extractLsb' 9 3 ∧
      sr1.toBits = w.extractLsb' 6 3) ∧
  ∀ (dr sr1 : Reg) (imm : BitVec 5) (s : State), ∃ t, exec (.addImm dr sr1 imm) s = .next t ∧
    ((t.reg dr).toNat : Int) = (((s.reg sr1).toNat : Int) + imm.toInt) % 65536 ∧
    t.cond.Describes (t.reg dr) ∧ SameRegsExcept [dr] s t ∧ t.pc = s.pc ∧ RegisterOnly s t

/-- R112: AND, register form. -/
def Obligations.AndRegisterForm : Prop :=
  (∀ w : Word, w.extractLsb' 12 4 = 0b0101 → w.getLsbD 5 = false →
    ∃ dr sr1 sr2, decode w = .andReg dr sr1 sr2 ∧ dr.toBits = w.extractLsb' 9 3 ∧
      sr1.toBits = w.extractLsb' 6 3 ∧ sr2.toBits = w.extractLsb' 0 3) ∧
  ∀ (dr sr1 sr2 : Reg) (s : State), ∃ t, exec (.andReg dr sr1 sr2) s = .next t ∧
    (∀ k, k < 16 →
      (t.reg dr).getLsbD k = ((s.reg sr1).getLsbD k && (s.reg sr2).getLsbD k)) ∧
    t.cond.Describes (t.reg dr) ∧ SameRegsExcept [dr] s t ∧ t.pc = s.pc ∧ RegisterOnly s t

/-- R113: AND, immediate form: the immediate is sign-extended, so bits [15:5] of the mask are its top
bit. -/
def Obligations.AndImmediateForm : Prop :=
  (∀ w : Word, w.extractLsb' 12 4 = 0b0101 → w.getLsbD 5 = true →
    ∃ dr sr1, decode w = .andImm dr sr1 (w.extractLsb' 0 5) ∧ dr.toBits = w.extractLsb' 9 3 ∧
      sr1.toBits = w.extractLsb' 6 3) ∧
  ∀ (dr sr1 : Reg) (imm : BitVec 5) (s : State), ∃ t, exec (.andImm dr sr1 imm) s = .next t ∧
    (∀ k, k < 16 →
      (t.reg dr).getLsbD k = ((s.reg sr1).getLsbD k && imm.getLsbD (min k 4))) ∧
    t.cond.Describes (t.reg dr) ∧ SameRegsExcept [dr] s t ∧ t.pc = s.pc ∧ RegisterOnly s t

/-- R114: NOT. -/
def Obligations.NotComplements : Prop :=
  (∀ w : Word, w.extractLsb' 12 4 = 0b1001 →
    ∃ dr sr, decode w = .notReg dr sr ∧ dr.toBits = w.extractLsb' 9 3 ∧
      sr.toBits = w.extractLsb' 6 3) ∧
  ∀ (dr sr : Reg) (s : State), ∃ t, exec (.notReg dr sr) s = .next t ∧
    (t.reg dr).toNat = 0xFFFF - (s.reg sr).toNat ∧
    t.cond.Describes (t.reg dr) ∧ SameRegsExcept [dr] s t ∧ t.pc = s.pc ∧ RegisterOnly s t

/-! ### Control transfer -/

/-- R120: BR tests the flags it names and branches relative to the incremented `pc`. -/
def Obligations.BranchOnFlags : Prop :=
  (∀ w : Word, w.extractLsb' 12 4 = 0b0000 →
    decode w = .br (w.getLsbD 11) (w.getLsbD 10) (w.getLsbD 9) (w.extractLsb' 0 9)) ∧
  ∀ (n z p : Bool) (off : BitVec 9) (s : State), ∃ t, exec (.br n z p off) s = .next t ∧
    ((n = true ∧ s.cond = .n ∨ z = true ∧ s.cond = .z ∨ p = true ∧ s.cond = .p) →
      t.pc = s.pc + off.signExtend 16) ∧
    (¬ (n = true ∧ s.cond = .n ∨ z = true ∧ s.cond = .z ∨ p = true ∧ s.cond = .p) →
      t.pc = s.pc) ∧
    SameRegsExcept [] s t ∧ t.cond = s.cond ∧ RegisterOnly s t

/-- R121: JMP. -/
def Obligations.JumpThroughRegister : Prop :=
  (∀ w : Word, w.extractLsb' 12 4 = 0b1100 →
    ∃ base, decode w = .jmp base ∧ base.toBits = w.extractLsb' 6 3) ∧
  ∀ (base : Reg) (s : State), ∃ t, exec (.jmp base) s = .next t ∧
    t.pc = s.reg base ∧ SameRegsExcept [] s t ∧ t.cond = s.cond ∧ RegisterOnly s t

/-- R122: JSR, offset form: R7 gets the return address, the target is relative to it. -/
def Obligations.JsrLinksAndBranches : Prop :=
  (∀ w : Word, w.extractLsb' 12 4 = 0b0100 → w.getLsbD 11 = true →
    decode w = .jsr (w.extractLsb' 0 11)) ∧
  ∀ (off : BitVec 11) (s : State), ∃ t, exec (.jsr off) s = .next t ∧
    t.reg .r7 = s.pc ∧ t.pc = s.pc + off.signExtend 16 ∧ SameRegsExcept [.r7] s t ∧
    t.cond = s.cond ∧ RegisterOnly s t

/-- R123: JSRR: the link is written first, so through R7 it falls through to the return address (the
spec's decision D7, log 10). -/
def Obligations.JsrrLinksThenReadsBase : Prop :=
  (∀ w : Word, w.extractLsb' 12 4 = 0b0100 → w.getLsbD 11 = false →
    ∃ base, decode w = .jsrr base ∧ base.toBits = w.extractLsb' 6 3) ∧
  ∀ (base : Reg) (s : State), ∃ t, exec (.jsrr base) s = .next t ∧
    t.reg .r7 = s.pc ∧ (base = .r7 → t.pc = s.pc) ∧ (base ≠ .r7 → t.pc = s.reg base) ∧
    SameRegsExcept [.r7] s t ∧ t.cond = s.cond ∧ RegisterOnly s t

/-! ### Loads -/

/-- R130: LD reads the cell at `pc + sext(PCoffset9)` and sets the flags from the word loaded; what the
read itself changes is `MemRead`'s. -/
def Obligations.LoadPcRelative : Prop :=
  (∀ w : Word, w.extractLsb' 12 4 = 0b0010 →
    ∃ dr, decode w = .ld dr (w.extractLsb' 0 9) ∧ dr.toBits = w.extractLsb' 9 3) ∧
  ∀ (dr : Reg) (off : BitVec 9) (s : State), ∃ t, exec (.ld dr off) s = .next t ∧
    t.reg dr = (s.memRead (s.pcRel9 off)).1 ∧ t.cond.Describes (t.reg dr) ∧
    (s.pcRel9 off ≠ s.cfg.kbsrAddr → t.reg dr = s.cell (s.pcRel9 off) ∧ t.input = s.input) ∧
    SameRegsExcept [dr] s t ∧ t.pc = s.pc ∧
    t.mem = (s.memRead (s.pcRel9 off)).2.mem ∧ t.input = (s.memRead (s.pcRel9 off)).2.input ∧
    SameCellsExcept (s.cellsTouchedByRead (s.pcRel9 off)) s t ∧ t.output = s.output ∧
    SameControl s t

/-- R131: LDI reads the pointer at `pc + sext(PCoffset9)` and then the cell it names; the flags are set
from the second word. -/
def Obligations.LoadIndirect : Prop :=
  (∀ w : Word, w.extractLsb' 12 4 = 0b1010 →
    ∃ dr, decode w = .ldi dr (w.extractLsb' 0 9) ∧ dr.toBits = w.extractLsb' 9 3) ∧
  ∀ (dr : Reg) (off : BitVec 9) (s : State),
    let ptr := s.memRead (s.pcRel9 off)
    ∃ t, exec (.ldi dr off) s = .next t ∧
      t.reg dr = (ptr.2.memRead ptr.1).1 ∧ t.cond.Describes (t.reg dr) ∧
      (s.pcRel9 off ≠ s.cfg.kbsrAddr → s.cell (s.pcRel9 off) ≠ s.cfg.kbsrAddr →
        t.reg dr = s.cell (s.cell (s.pcRel9 off)) ∧ t.input = s.input) ∧
      SameRegsExcept [dr] s t ∧ t.pc = s.pc ∧
      t.mem = (ptr.2.memRead ptr.1).2.mem ∧ t.input = (ptr.2.memRead ptr.1).2.input ∧
      SameCellsExcept (s.cellsTouchedByRead (s.pcRel9 off) ++ s.cellsTouchedByRead ptr.1) s t ∧
      t.output = s.output ∧ SameControl s t

/-- R132: LDR reads the cell at `base + sext(offset6)`; the base is read before the destination is
written, and is not modified unless it is the destination. -/
def Obligations.LoadBaseOffset : Prop :=
  (∀ w : Word, w.extractLsb' 12 4 = 0b0110 →
    ∃ dr base, decode w = .ldr dr base (w.extractLsb' 0 6) ∧ dr.toBits = w.extractLsb' 9 3 ∧
      base.toBits = w.extractLsb' 6 3) ∧
  ∀ (dr base : Reg) (off : BitVec 6) (s : State), ∃ t, exec (.ldr dr base off) s = .next t ∧
    t.reg dr = (s.memRead (s.baseOff base off)).1 ∧ t.cond.Describes (t.reg dr) ∧
    (s.baseOff base off ≠ s.cfg.kbsrAddr →
      t.reg dr = s.cell (s.baseOff base off) ∧ t.input = s.input) ∧
    SameRegsExcept [dr] s t ∧ t.pc = s.pc ∧
    t.mem = (s.memRead (s.baseOff base off)).2.mem ∧
    t.input = (s.memRead (s.baseOff base off)).2.input ∧
    SameCellsExcept (s.cellsTouchedByRead (s.baseOff base off)) s t ∧ t.output = s.output ∧
    SameControl s t

/-- R133: LEA loads the address, touches no memory, polls nothing, and sets the flags from the
address. -/
def Obligations.LoadEffectiveAddress : Prop :=
  (∀ w : Word, w.extractLsb' 12 4 = 0b1110 →
    ∃ dr, decode w = .lea dr (w.extractLsb' 0 9) ∧ dr.toBits = w.extractLsb' 9 3) ∧
  ∀ (dr : Reg) (off : BitVec 9) (s : State), ∃ t, exec (.lea dr off) s = .next t ∧
    t.reg dr = s.pc + off.signExtend 16 ∧ t.cond.Describes (t.reg dr) ∧ SameRegsExcept [dr] s t ∧
    t.pc = s.pc ∧ RegisterOnly s t

/-! ### Stores -/

/-- R140: ST writes the source register to the cell at `pc + sext(PCoffset9)` and changes nothing
else. -/
def Obligations.StorePcRelative : Prop :=
  (∀ w : Word, w.extractLsb' 12 4 = 0b0011 →
    ∃ sr, decode w = .st sr (w.extractLsb' 0 9) ∧ sr.toBits = w.extractLsb' 9 3) ∧
  ∀ (sr : Reg) (off : BitVec 9) (s : State), ∃ t, exec (.st sr off) s = .next t ∧
    t.cell (s.pcRel9 off) = s.reg sr ∧ SameCellsExcept [s.pcRel9 off] s t ∧
    SameRegsExcept [] s t ∧ t.pc = s.pc ∧ t.cond = s.cond ∧ SameConsole s t ∧ SameControl s t

/-- R141: STI writes the source register to the cell the pointer names; one read, then one write. The
pointer cell itself is not modified unless the pointer names it. -/
def Obligations.StoreIndirect : Prop :=
  (∀ w : Word, w.extractLsb' 12 4 = 0b1011 →
    ∃ sr, decode w = .sti sr (w.extractLsb' 0 9) ∧ sr.toBits = w.extractLsb' 9 3) ∧
  ∀ (sr : Reg) (off : BitVec 9) (s : State),
    let ptr := s.memRead (s.pcRel9 off)
    ∃ t, exec (.sti sr off) s = .next t ∧
      t.cell ptr.1 = s.reg sr ∧ SameCellsExcept [ptr.1] ptr.2 t ∧
      SameCellsExcept (ptr.1 :: s.cellsTouchedByRead (s.pcRel9 off)) s t ∧
      (s.pcRel9 off ≠ s.cfg.kbsrAddr →
        ptr.1 = s.cell (s.pcRel9 off) ∧ t.input = s.input) ∧
      SameRegsExcept [] s t ∧ t.pc = s.pc ∧ t.cond = s.cond ∧ t.input = ptr.2.input ∧
      t.output = s.output ∧ SameControl s t

/-- R142: STR writes the source register to the cell at `base + sext(offset6)` and changes nothing
else. -/
def Obligations.StoreBaseOffset : Prop :=
  (∀ w : Word, w.extractLsb' 12 4 = 0b0111 →
    ∃ sr base, decode w = .str sr base (w.extractLsb' 0 6) ∧ sr.toBits = w.extractLsb' 9 3 ∧
      base.toBits = w.extractLsb' 6 3) ∧
  ∀ (sr base : Reg) (off : BitVec 6) (s : State), ∃ t, exec (.str sr base off) s = .next t ∧
    t.cell (s.baseOff base off) = s.reg sr ∧ SameCellsExcept [s.baseOff base off] s t ∧
    SameRegsExcept [] s t ∧ t.pc = s.pc ∧ t.cond = s.cond ∧ SameConsole s t ∧ SameControl s t

/-! ### TRAP and its routines -/

/-- R152: GETC with a byte to come: R7 the return address, R0 the byte zero-extended, the byte
consumed, no echo, flags and device cells untouched. The zero upper byte is the spec's decision D24
(log 10). -/
def Obligations.GetcReadsOneByte : Prop :=
  (∀ w : Word, w.extractLsb' 12 4 = 0b1111 → w.extractLsb' 0 8 = 0x20 → decode w = .getc) ∧
  ∀ (s : State) (b : Byte), s.input.next = some b → ∃ t, exec .getc s = .next t ∧
    (t.reg .r0).toNat = b.toNat ∧ t.reg .r7 = s.pc ∧ SameRegsExcept [.r0, .r7] s t ∧
    t.input = s.input.drop ∧ t.output = s.output ∧
    t.cond = s.cond ∧ t.pc = s.pc ∧ SameCellsExcept [] s t ∧ SameControl s t

/-- R208, R194: a `ConsoleRead` with no byte. While the source neither delivers nor fails, GETC, and IN
once its prompt is out, do not complete; on a source that is exhausted and closed they end in the I/O
fault, with R7 written, R0 not, and the prompt written. That the waiting instruction is one step that is
not enabled is the spec's decision D20 (log 3), and that a closed source is an I/O fault its D19 (log 10). -/
def Obligations.ConsoleReadWaitsOrFails : Prop :=
  ∀ s : State, s.input.bytes = [] →
    (s.input.ending = .waits →
      exec .getc s = .fault .waitsForInput ∧
      (s.output.accepts s.cfg.inPrompt.length = true →
        exec .inChar s = .fault .waitsForInput)) ∧
    (s.input.ending = .closed →
      (∃ t, exec .getc s = .next t ∧ t.run = .faulted .ioFault ∧ t.reg .r7 = s.pc ∧
        SameRegsExcept [.r7] s t ∧ t.output = s.output ∧ t.input = s.input ∧ t.cond = s.cond ∧
        t.pc = s.pc ∧ SameCellsExcept [] s t ∧ t.cfg = s.cfg) ∧
      (s.output.accepts s.cfg.inPrompt.length = true →
        ∃ t, exec .inChar s = .next t ∧ t.run = .faulted .ioFault ∧ t.reg .r7 = s.pc ∧
          SameRegsExcept [.r7] s t ∧ t.output.written = s.output.written ++ s.cfg.inPrompt ∧
          t.input = s.input ∧ t.cond = s.cond ∧ t.pc = s.pc ∧ SameCellsExcept [] s t ∧
          t.cfg = s.cfg))

/-- R153: OUT appends the low byte of R0 to the output sink; with the sink unavailable it ends in the
I/O fault and nothing is written. R7 is R150's, what the fault keeps is R191's and R194's (decision D19,
log 10), and an unavailable sink is one with room for nothing (log 5). -/
def Obligations.OutWritesLowByte : Prop :=
  (∀ w : Word, w.extractLsb' 12 4 = 0b1111 → w.extractLsb' 0 8 = 0x21 → decode w = .out) ∧
  (∀ s : State, s.output.accepts 1 = true → ∃ t, exec .out s = .next t ∧
    t.output.written = s.output.written ++ [(s.reg .r0).extractLsb' 0 8] ∧ t.reg .r7 = s.pc ∧
    SameRegsExcept [.r7] s t ∧ t.input = s.input ∧ t.cond = s.cond ∧ t.pc = s.pc ∧
    SameCellsExcept [] s t ∧ SameControl s t) ∧
  (∀ s : State, s.output.room = some 0 → ∃ t, exec .out s = .next t ∧
    t.run = .faulted .ioFault ∧ t.output = s.output ∧ t.reg .r7 = s.pc ∧
    SameRegsExcept [.r7] s t ∧ t.input = s.input ∧ t.cond = s.cond ∧ t.pc = s.pc ∧
    SameCellsExcept [] s t ∧ t.cfg = s.cfg)

/-- R154: PUTS on a string writes the low byte of each cell, up to and not including the zero word; R0
is unchanged; the address wraps. The low byte and the copy of the address are the spec's decision D15
(log 10). A string that passes `KBSR_ADDR` is not this one. -/
def Obligations.PutsWritesString : Prop :=
  (∀ w : Word, w.extractLsb' 12 4 = 0b1111 → w.extractLsb' 0 8 = 0x22 → decode w = .puts) ∧
  ∀ (s : State) (cs : List Word), s.HasString (s.reg .r0) cs →
    s.output.accepts cs.length = true → ∃ t, exec .puts s = .next t ∧
      t.output.written = s.output.written ++ cs.map (fun c => c.extractLsb' 0 8) ∧
      t.reg .r7 = s.pc ∧ SameRegsExcept [.r7] s t ∧ t.input = s.input ∧ t.cond = s.cond ∧
      t.pc = s.pc ∧ SameCellsExcept [] s t ∧ SameControl s t

/-- R156: PUTSP on a string writes of each cell the low byte and then, if it is not zero, the high
byte (the spec's decision D16, log 10). -/
def Obligations.PutspWritesPackedString : Prop :=
  (∀ w : Word, w.extractLsb' 12 4 = 0b1111 → w.extractLsb' 0 8 = 0x24 → decode w = .putsp) ∧
  ∀ (s : State) (cs : List Word), s.HasString (s.reg .r0) cs →
    s.output.accepts (cs.flatMap (fun c =>
        c.extractLsb' 0 8 :: (if c.toNat < 256 then [] else [c.extractLsb' 8 8]))).length = true →
      ∃ t, exec .putsp s = .next t ∧
      t.output.written = s.output.written ++ cs.flatMap (fun c =>
        c.extractLsb' 0 8 :: (if c.toNat < 256 then [] else [c.extractLsb' 8 8])) ∧
      t.reg .r7 = s.pc ∧ SameRegsExcept [.r7] s t ∧ t.input = s.input ∧ t.cond = s.cond ∧
      t.pc = s.pc ∧ SameCellsExcept [] s t ∧ SameControl s t

/-- R191, R194: PUTS and PUTSP on a string longer than the sink accepts end in the I/O fault, and the
bytes written before it stay written. The bytes are those of the spec's decisions D15 and D16, the
I/O fault its D19 (log 10); how many bytes the sink accepts is the model's log 5. -/
def Obligations.PrintSinkFailureKeepsPrefix : Prop :=
  ∀ (s : State) (cs : List Word) (n : Nat), s.HasString (s.reg .r0) cs → s.output.room = some n →
    (n < cs.length → ∃ t, exec .puts s = .next t ∧ t.run = .faulted .ioFault ∧
      t.output.written = s.output.written ++ (cs.map (fun c => c.extractLsb' 0 8)).take n ∧
      t.reg .r7 = s.pc ∧ SameRegsExcept [.r7] s t ∧ t.pc = s.pc) ∧
    (n < (cs.flatMap (fun c =>
        c.extractLsb' 0 8 :: (if c.toNat < 256 then [] else [c.extractLsb' 8 8]))).length →
      ∃ t, exec .putsp s = .next t ∧ t.run = .faulted .ioFault ∧
        t.output.written = s.output.written ++ (cs.flatMap (fun c =>
          c.extractLsb' 0 8 :: (if c.toNat < 256 then [] else [c.extractLsb' 8 8]))).take n ∧
        t.reg .r7 = s.pc ∧ SameRegsExcept [.r7] s t ∧ t.pc = s.pc)

/-- R155: IN writes the prompt, takes a byte, echoes it, and stores it in R0 zero-extended, in that
order; a sink that fails in the prompt leaves the input alone, whatever it holds, and one that fails at the
echo leaves R0 alone. The prompt is the parameter `IN_PROMPT`, whatever it is (log 1); the sink's room is
the model's log 5, the zero upper byte and the I/O fault are the spec's decisions D24 and D19 (log 10). -/
def Obligations.InPromptsReadsEchoes : Prop :=
  (∀ w : Word, w.extractLsb' 12 4 = 0b1111 → w.extractLsb' 0 8 = 0x23 → decode w = .inChar) ∧
  (∀ (s : State) (n : Nat), s.output.room = some n → n < s.cfg.inPrompt.length →
    ∃ t, exec .inChar s = .next t ∧ t.run = .faulted .ioFault ∧
      t.output.written = s.output.written ++ s.cfg.inPrompt.take n ∧ t.input = s.input ∧
      t.reg .r7 = s.pc ∧ SameRegsExcept [.r7] s t ∧ t.cond = s.cond ∧ t.pc = s.pc ∧
      SameCellsExcept [] s t ∧ t.cfg = s.cfg) ∧
  ∀ (s : State) (b : Byte), s.input.next = some b →
    (s.output.accepts (s.cfg.inPrompt.length + 1) = true → ∃ t, exec .inChar s = .next t ∧
      t.output.written = s.output.written ++ s.cfg.inPrompt ++ [b] ∧
      (t.reg .r0).toNat = b.toNat ∧ t.reg .r7 = s.pc ∧ SameRegsExcept [.r0, .r7] s t ∧
      t.input = s.input.drop ∧ t.cond = s.cond ∧ t.pc = s.pc ∧
      SameCellsExcept [] s t ∧ SameControl s t) ∧
    (s.output.room = some s.cfg.inPrompt.length → ∃ t, exec .inChar s = .next t ∧
      t.run = .faulted .ioFault ∧ t.output.written = s.output.written ++ s.cfg.inPrompt ∧
      t.input = s.input.drop ∧ t.reg .r7 = s.pc ∧ SameRegsExcept [.r7] s t ∧ t.cond = s.cond ∧
      t.pc = s.pc ∧ SameCellsExcept [] s t ∧ t.cfg = s.cfg)

/-- R157: HALT writes R7, enters HALTED, and leaves `pc`, the flags, memory and the console alone (the
spec's decision D9, log 10). -/
def Obligations.HaltEntersHalted : Prop :=
  (∀ w : Word, w.extractLsb' 12 4 = 0b1111 → w.extractLsb' 0 8 = 0x25 → decode w = .halt) ∧
  ∀ s : State, ∃ t, exec .halt s = .next t ∧ t.run = .halted ∧ t.reg .r7 = s.pc ∧
    SameRegsExcept [.r7] s t ∧ t.pc = s.pc ∧ t.cond = s.cond ∧ SameCellsExcept [] s t ∧
    SameConsole s t ∧ t.cfg = s.cfg

/-- R158: TRAP with an unrecognised vector writes R7 and then faults; nothing else changes. That
R7 is written is the spec's decision D8 (log 10). -/
def Obligations.UnrecognisedVectorFaults : Prop :=
  (∀ w : Word, w.extractLsb' 12 4 = 0b1111 →
    (w.extractLsb' 0 8).toNat < 0x20 ∨ 0x25 < (w.extractLsb' 0 8).toNat →
    decode w = .trapUnrecognised (w.extractLsb' 0 8)) ∧
  ∀ (v : BitVec 8) (s : State), ∃ t, exec (.trapUnrecognised v) s = .next t ∧
    t.run = .faulted .badTrapVector ∧ t.reg .r7 = s.pc ∧ SameRegsExcept [.r7] s t ∧ t.pc = s.pc ∧
    t.cond = s.cond ∧ SameCellsExcept [] s t ∧ SameConsole s t ∧ t.cfg = s.cfg

/-- R170, R171: RES and RTI fault, each with its cause, and change nothing else. -/
def Obligations.ReservedOpcodesFault : Prop :=
  (∀ w : Word, w.extractLsb' 12 4 = 0b1101 → decode w = .res) ∧
  (∀ w : Word, w.extractLsb' 12 4 = 0b1000 → decode w = .rti) ∧
  ∀ s : State,
    (∃ t, exec .res s = .next t ∧ t.run = .faulted .resOpcode ∧ SameRegsExcept [] s t ∧
      t.pc = s.pc ∧ t.cond = s.cond ∧ SameCellsExcept [] s t ∧ SameConsole s t ∧ t.cfg = s.cfg) ∧
    (∃ t, exec .rti s = .next t ∧ t.run = .faulted .rtiOpcode ∧ SameRegsExcept [] s t ∧
      t.pc = s.pc ∧ t.cond = s.cond ∧ SameCellsExcept [] s t ∧ SameConsole s t ∧ t.cfg = s.cfg)

/-- R159: what every trap routine leaves alone: R1 to R6, the flags, `pc`, and every cell of memory but
the device cells that a string read at `KBSR_ADDR` refreshes; R7 is written always. -/
def Obligations.TrapRoutinesLeaveAlone : Prop :=
  ∀ (i : Instr) (s t : State), i.isTrap = true → exec i s = .next t →
    t.reg .r7 = s.pc ∧ SameRegsExcept [.r0, .r7] s t ∧ t.cond = s.cond ∧ t.pc = s.pc ∧
    SameCellsExcept [s.cfg.kbsrAddr, s.cfg.kbdrAddr] s t ∧
    (i ≠ .puts → i ≠ .putsp → SameCellsExcept [] s t) ∧
    (i ≠ .getc → i ≠ .inChar → t.reg .r0 = s.reg .r0)

/-- R154, R180: PUTS and PUTSP end in every state in which some cell but the device cells holds zero, or
a poll to come is answered "not ready", or a zero byte or the end of the source is to come, or the sink is
bounded: every 65536 cells the string passes `KBSR_ADDR`. The model's bound on the loop is log 8, the
sink's room log 5. -/
def Obligations.PrintRoutinesEnd : Prop :=
  ∀ s : State, ¬ s.EndlessText ∨ s.output.room ≠ none →
    (∃ t, exec .puts s = .next t ∧ (t.run = s.run ∨ t.run = .faulted .ioFault)) ∧
    (∃ t, exec .putsp s = .next t ∧ (t.run = s.run ∨ t.run = .faulted .ioFault))

/-- R154: if no cell ever reads zero the routine never ends: no cell but KBSR holds zero, every poll is
answered "ready", the bytes that come are never zero, and the sink never fails. The answer
`stringNeverEnds` is the model's (log 8). -/
def Obligations.EndlessStringNeverEnds : Prop :=
  ∀ s : State, s.EndlessText →
    (s.cfg.kbdrAddr = s.cfg.kbsrAddr ∨ s.cell s.cfg.kbdrAddr ≠ 0) → s.output.room = none →
    exec .puts s = .fault .stringNeverEnds ∧ exec .putsp s = .fault .stringNeverEnds

/-! ### The whole machine -/

/-- R22: no instruction writes a general-purpose register other than those the table names. -/
def Obligations.OnlyNamedRegistersWritten : Prop :=
  ∀ (i : Instr) (s t : State), exec i s = .next t → SameRegsExcept i.writes s t

/-- R28: the flags are written by ADD, AND, NOT, LD, LDI, LDR and LEA, each with the value it wrote to
its destination register, and by nothing else. -/
def Obligations.OnlyDesignatedOpcodesSetFlags : Prop :=
  ∀ (i : Instr) (s t : State), exec i s = .next t →
    (i.setsFlags = false → t.cond = s.cond) ∧
    (i.setsFlags = true → ∃ dr, i.writes = [dr] ∧ t.cond.Describes (t.reg dr))

/-- R56: only LD, LDI, LDR, ST, STI, STR, PUTS and PUTSP touch memory after the fetch: every other
instruction writes no cell, polls nothing, and answers the same whatever memory holds. -/
def Obligations.OnlyMemoryInstructionsTouchMemory : Prop :=
  ∀ (i : Instr) (s : State), i.touchesMemory = false →
    (∀ t, exec i s = .next t → t.mem = s.mem ∧ t.input.polls = s.input.polls ∧
      t.input.pollRest = s.input.pollRest) ∧
    ∀ m : Memory,
      (∀ t, exec i s = .next t → exec i (s.withMemory m) = .next (t.withMemory m)) ∧
      (∀ f, exec i s = .fault f → exec i (s.withMemory m) = .fault f)

/-- R35: the core only appends to the output sink, and takes bytes from the input source in order, each
once (the spec's decision D13, log 10); what taking one does is `InputDeliversInOrder`. -/
def Obligations.ConsoleUsedInOrder : Prop :=
  ∀ s t : State, step s = .next t →
    (∃ out, t.output.written = s.output.written ++ out) ∧
    s.input.Later t.input

/-- R35: the core never reads the output sink: what was written before changes nothing of what a step
does. -/
def Obligations.EarlierOutputUnobservable : Prop :=
  ∀ (p : List Byte) (s : State),
    (∀ t, step s = .next t → step (s.withEarlierOutput p) = .next (t.withEarlierOutput p)) ∧
    (∀ f, step s = .fault f → step (s.withEarlierOutput p) = .fault f)

/-! ### Any text, and the input -/

/-- R154, R156, R55: PUTS and PUTSP on any text, wherever it passes: the words are those that successive
`MemRead`s give, so a cell at `KBSR_ADDR` polls and reads 0x8000, or 0x0000, which ends the text. The bytes
of each word are written in order; memory and input are as the reads leave them; a sink too short for them
takes what fits and the I/O fault follows. The bytes are the spec's decisions D15 and D16, the reads its
D14, the I/O fault its D19 (log 10); the sink's room is the model's log 5. -/
def Obligations.PrintRoutinesReadThroughStatus : Prop :=
  ∀ (s u : State) (cs : List Word), ReadsText cs (s.reg .r0) s u →
    (s.output.accepts cs.length = true → ∃ t, exec .puts s = .next t ∧
      t.output.written = s.output.written ++ cs.map (fun c => c.extractLsb' 0 8) ∧
      t.mem = u.mem ∧ t.input = u.input ∧ t.reg .r7 = s.pc ∧ SameRegsExcept [.r7] s t ∧
      t.cond = s.cond ∧ t.pc = s.pc ∧ SameControl s t) ∧
    (s.output.accepts (cs.flatMap (fun c =>
        c.extractLsb' 0 8 :: (if c.toNat < 256 then [] else [c.extractLsb' 8 8]))).length = true →
      ∃ t, exec .putsp s = .next t ∧
        t.output.written = s.output.written ++ cs.flatMap (fun c =>
          c.extractLsb' 0 8 :: (if c.toNat < 256 then [] else [c.extractLsb' 8 8])) ∧
        t.mem = u.mem ∧ t.input = u.input ∧ t.reg .r7 = s.pc ∧ SameRegsExcept [.r7] s t ∧
        t.cond = s.cond ∧ t.pc = s.pc ∧ SameControl s t) ∧
    ∀ n, s.output.room = some n →
      (n < cs.length → ∃ t, exec .puts s = .next t ∧ t.run = .faulted .ioFault ∧
        t.output.written = s.output.written ++ (cs.map (fun c => c.extractLsb' 0 8)).take n ∧
        t.reg .r7 = s.pc ∧ SameRegsExcept [.r7] s t ∧ t.pc = s.pc) ∧
      (n < (cs.flatMap (fun c =>
          c.extractLsb' 0 8 :: (if c.toNat < 256 then [] else [c.extractLsb' 8 8]))).length →
        ∃ t, exec .putsp s = .next t ∧ t.run = .faulted .ioFault ∧
          t.output.written = s.output.written ++ (cs.flatMap (fun c =>
            c.extractLsb' 0 8 :: (if c.toNat < 256 then [] else [c.extractLsb' 8 8]))).take n ∧
          t.reg .r7 = s.pc ∧ SameRegsExcept [.r7] s t ∧ t.pc = s.pc)

/-- R8, R206: the bytes of `INPUT` in order, each once, and the host's answers likewise: a listed byte or
answer is taken from the front; after the listed bytes come those of the ending: none, or one byte for
ever, or a stream, whose byte is zero exactly when `zeroIn` has counted down to 0; after the listed answers
come those of `pollRest`. That the bytes and gaps of a stream are free values is the model's (log 12). -/
def Obligations.InputDeliversInOrder : Prop :=
  (∀ (i : InputSource) (b : Byte) (rest : List Byte), i.bytes = b :: rest →
    i.next = some b ∧ i.drop = { i with bytes := rest }) ∧
  (∀ i : InputSource, i.bytes = [] →
    (i.ending = .closed ∨ i.ending = .waits → i.next = none ∧ i.drop = i) ∧
    (∀ b, i.ending = .endless b → i.next = some b ∧ i.drop = i) ∧
    (∀ c z, i.ending = .stream c z → ∃ b z', i.next = some b ∧ (b = 0 ↔ z = some 0) ∧
      i.drop = { i with ending := .stream (c + 1) z' } ∧
      (z = none → z' = none) ∧ ∀ k, z = some (k + 1) → z' = some k)) ∧
  (∀ (i : InputSource) (p : Bool) (rest : List Bool), i.polls = p :: rest →
    i.answer = p ∧ i.dropPoll = { i with polls := rest }) ∧
  (∀ i : InputSource, i.polls = [] →
    (∀ p, i.pollRest = .always p → i.answer = p ∧ i.dropPoll = i) ∧
    (∀ c z, i.pollRest = .varying c z → (i.answer = false ↔ z = some 0) ∧
      ∃ z', i.dropPoll = { i with pollRest := .varying (c + 1) z' } ∧
        (z = none → z' = none) ∧ ∀ k, z = some (k + 1) → z' = some k))
end

