-- ==== Sys2Proof/Laws/Decode.lean ====
section
/-! SUPPORT. The fields of a word, one lemma each, and what `decode` gives for each opcode field. -/

namespace Sys2Proof

theorem Reg.ofBits_toBits (r : Reg) :
    Reg.ofBits (r.toBits.getLsbD 2) (r.toBits.getLsbD 1) (r.toBits.getLsbD 0) = r := by
  cases r <;> rfl

theorem Reg.toBits_ofBits (b2 b1 b0 : Bool) :
    (Reg.ofBits b2 b1 b0).toBits = BitVec.ofBool b2 ++ BitVec.ofBool b1 ++ BitVec.ofBool b0 := by
  cases b2 <;> cases b1 <;> cases b0 <;> rfl

theorem Reg.toBits_injective {r q : Reg} (h : r.toBits = q.toBits) : r = q := by
  rw [← Reg.ofBits_toBits r, h, Reg.ofBits_toBits]

theorem ofBool3_bits : ∀ b2 b1 b0 : Bool,
    (BitVec.ofBool b2 ++ BitVec.ofBool b1 ++ BitVec.ofBool b0).getLsbD 0 = b0 ∧
    (BitVec.ofBool b2 ++ BitVec.ofBool b1 ++ BitVec.ofBool b0).getLsbD 1 = b1 ∧
    (BitVec.ofBool b2 ++ BitVec.ofBool b1 ++ BitVec.ofBool b0).getLsbD 2 = b2 := by
  decide

/-- Three bits of a word, most significant first, are a field of it. -/
theorem extract3_eq (w : Word) (lo : Nat) :
    w.extractLsb' lo 3 =
      BitVec.ofBool (w.getLsbD (lo + 2)) ++ BitVec.ofBool (w.getLsbD (lo + 1)) ++
        BitVec.ofBool (w.getLsbD lo) := by
  obtain ⟨h0, h1, h2⟩ := ofBool3_bits (w.getLsbD (lo + 2)) (w.getLsbD (lo + 1)) (w.getLsbD lo)
  apply BitVec.eq_of_getLsbD_eq
  intro k hk
  obtain rfl | rfl | rfl : k = 0 ∨ k = 1 ∨ k = 2 := by omega
  · rw [h0, BitVec.getLsbD_extractLsb']
    simp
  · rw [h1, BitVec.getLsbD_extractLsb']
    simp
  · rw [h2, BitVec.getLsbD_extractLsb']
    simp

/-- `inst[11:9]` selects `regA` (R84). -/
theorem toBits_regA (w : Word) : (regA w).toBits = w.extractLsb' 9 3 := by
  rw [regA, Reg.toBits_ofBits, extract3_eq]

/-- `inst[8:6]` selects `regB` (R84). -/
theorem toBits_regB (w : Word) : (regB w).toBits = w.extractLsb' 6 3 := by
  rw [regB, Reg.toBits_ofBits, extract3_eq]

/-- `inst[2:0]` selects `regC` (R84). -/
theorem toBits_regC (w : Word) : (regC w).toBits = w.extractLsb' 0 3 := by
  rw [regC, Reg.toBits_ofBits, extract3_eq]

/-- The opcode slot is a function of `inst[15:12]` alone (R81). -/
theorem opcode_of_field {w : Word} {v : BitVec 4} (h : w.extractLsb' 12 4 = v) :
    opcode w = Opcode.ofBits (v.getLsbD 3) (v.getLsbD 2) (v.getLsbD 1) (v.getLsbD 0) := by
  subst h
  simp [opcode]

end Sys2Proof
end

