-- ==== Sys2Proof/Laws/State.lean ====
section
/-! SUPPORT. One lemma per field per update of the state, each true by rfl, and the register laws: no
later proof unfolds a record update. -/

namespace Sys2Proof.Machine

/-! ### `State.setReg` -/

@[simp] theorem State.setReg_regs (s : State) (r : Reg) (v : Word) : (s.setReg r v).regs = s.regs.set r v := rfl
@[simp] theorem State.setReg_pc (s : State) (r : Reg) (v : Word) : (s.setReg r v).pc = s.pc := rfl
@[simp] theorem State.setReg_cond (s : State) (r : Reg) (v : Word) : (s.setReg r v).cond = s.cond := rfl
@[simp] theorem State.setReg_run (s : State) (r : Reg) (v : Word) : (s.setReg r v).run = s.run := rfl
@[simp] theorem State.setReg_mem (s : State) (r : Reg) (v : Word) : (s.setReg r v).mem = s.mem := rfl
@[simp] theorem State.setReg_input (s : State) (r : Reg) (v : Word) : (s.setReg r v).input = s.input := rfl
@[simp] theorem State.setReg_output (s : State) (r : Reg) (v : Word) : (s.setReg r v).output = s.output := rfl
@[simp] theorem State.setReg_cfg (s : State) (r : Reg) (v : Word) : (s.setReg r v).cfg = s.cfg := rfl
@[simp] theorem State.setReg_cell (s : State) (r : Reg) (v : Word) (b : Word) : (s.setReg r v).cell b = s.cell b := rfl

/-! ### `State.setPc` -/

@[simp] theorem State.setPc_regs (s : State) (v : Word) : (s.setPc v).regs = s.regs := rfl
@[simp] theorem State.setPc_pc (s : State) (v : Word) : (s.setPc v).pc = v := rfl
@[simp] theorem State.setPc_cond (s : State) (v : Word) : (s.setPc v).cond = s.cond := rfl
@[simp] theorem State.setPc_run (s : State) (v : Word) : (s.setPc v).run = s.run := rfl
@[simp] theorem State.setPc_mem (s : State) (v : Word) : (s.setPc v).mem = s.mem := rfl
@[simp] theorem State.setPc_input (s : State) (v : Word) : (s.setPc v).input = s.input := rfl
@[simp] theorem State.setPc_output (s : State) (v : Word) : (s.setPc v).output = s.output := rfl
@[simp] theorem State.setPc_cfg (s : State) (v : Word) : (s.setPc v).cfg = s.cfg := rfl
@[simp] theorem State.setPc_reg (s : State) (v : Word) (q : Reg) : (s.setPc v).reg q = s.reg q := rfl
@[simp] theorem State.setPc_cell (s : State) (v : Word) (b : Word) : (s.setPc v).cell b = s.cell b := rfl

/-! ### `State.setCell` -/

@[simp] theorem State.setCell_regs (s : State) (a v : Word) : (s.setCell a v).regs = s.regs := rfl
@[simp] theorem State.setCell_pc (s : State) (a v : Word) : (s.setCell a v).pc = s.pc := rfl
@[simp] theorem State.setCell_cond (s : State) (a v : Word) : (s.setCell a v).cond = s.cond := rfl
@[simp] theorem State.setCell_run (s : State) (a v : Word) : (s.setCell a v).run = s.run := rfl
@[simp] theorem State.setCell_mem (s : State) (a v : Word) : (s.setCell a v).mem = s.mem.write a.toNat v := rfl
@[simp] theorem State.setCell_input (s : State) (a v : Word) : (s.setCell a v).input = s.input := rfl
@[simp] theorem State.setCell_output (s : State) (a v : Word) : (s.setCell a v).output = s.output := rfl
@[simp] theorem State.setCell_cfg (s : State) (a v : Word) : (s.setCell a v).cfg = s.cfg := rfl
@[simp] theorem State.setCell_reg (s : State) (a v : Word) (q : Reg) : (s.setCell a v).reg q = s.reg q := rfl

/-! ### `State.setInput` -/

@[simp] theorem State.setInput_regs (s : State) (i : InputSource) : (s.setInput i).regs = s.regs := rfl
@[simp] theorem State.setInput_pc (s : State) (i : InputSource) : (s.setInput i).pc = s.pc := rfl
@[simp] theorem State.setInput_cond (s : State) (i : InputSource) : (s.setInput i).cond = s.cond := rfl
@[simp] theorem State.setInput_run (s : State) (i : InputSource) : (s.setInput i).run = s.run := rfl
@[simp] theorem State.setInput_mem (s : State) (i : InputSource) : (s.setInput i).mem = s.mem := rfl
@[simp] theorem State.setInput_input (s : State) (i : InputSource) : (s.setInput i).input = i := rfl
@[simp] theorem State.setInput_output (s : State) (i : InputSource) : (s.setInput i).output = s.output := rfl
@[simp] theorem State.setInput_cfg (s : State) (i : InputSource) : (s.setInput i).cfg = s.cfg := rfl
@[simp] theorem State.setInput_reg (s : State) (i : InputSource) (q : Reg) : (s.setInput i).reg q = s.reg q := rfl
@[simp] theorem State.setInput_cell (s : State) (i : InputSource) (b : Word) : (s.setInput i).cell b = s.cell b := rfl

/-! ### `State.setOutput` -/

@[simp] theorem State.setOutput_regs (s : State) (o : OutputSink) : (s.setOutput o).regs = s.regs := rfl
@[simp] theorem State.setOutput_pc (s : State) (o : OutputSink) : (s.setOutput o).pc = s.pc := rfl
@[simp] theorem State.setOutput_cond (s : State) (o : OutputSink) : (s.setOutput o).cond = s.cond := rfl
@[simp] theorem State.setOutput_run (s : State) (o : OutputSink) : (s.setOutput o).run = s.run := rfl
@[simp] theorem State.setOutput_mem (s : State) (o : OutputSink) : (s.setOutput o).mem = s.mem := rfl
@[simp] theorem State.setOutput_input (s : State) (o : OutputSink) : (s.setOutput o).input = s.input := rfl
@[simp] theorem State.setOutput_output (s : State) (o : OutputSink) : (s.setOutput o).output = o := rfl
@[simp] theorem State.setOutput_cfg (s : State) (o : OutputSink) : (s.setOutput o).cfg = s.cfg := rfl
@[simp] theorem State.setOutput_reg (s : State) (o : OutputSink) (q : Reg) : (s.setOutput o).reg q = s.reg q := rfl
@[simp] theorem State.setOutput_cell (s : State) (o : OutputSink) (b : Word) : (s.setOutput o).cell b = s.cell b := rfl

/-! ### `State.setcc` -/

@[simp] theorem State.setcc_regs (s : State) (v : Word) : (s.setcc v).regs = s.regs := rfl
@[simp] theorem State.setcc_pc (s : State) (v : Word) : (s.setcc v).pc = s.pc := rfl
@[simp] theorem State.setcc_cond (s : State) (v : Word) : (s.setcc v).cond = condOf v := rfl
@[simp] theorem State.setcc_run (s : State) (v : Word) : (s.setcc v).run = s.run := rfl
@[simp] theorem State.setcc_mem (s : State) (v : Word) : (s.setcc v).mem = s.mem := rfl
@[simp] theorem State.setcc_input (s : State) (v : Word) : (s.setcc v).input = s.input := rfl
@[simp] theorem State.setcc_output (s : State) (v : Word) : (s.setcc v).output = s.output := rfl
@[simp] theorem State.setcc_cfg (s : State) (v : Word) : (s.setcc v).cfg = s.cfg := rfl
@[simp] theorem State.setcc_reg (s : State) (v : Word) (q : Reg) : (s.setcc v).reg q = s.reg q := rfl
@[simp] theorem State.setcc_cell (s : State) (v : Word) (b : Word) : (s.setcc v).cell b = s.cell b := rfl

/-! ### `State.raiseFault` -/

@[simp] theorem State.raiseFault_regs (s : State) (c : FaultCause) : (s.raiseFault c).regs = s.regs := rfl
@[simp] theorem State.raiseFault_pc (s : State) (c : FaultCause) : (s.raiseFault c).pc = s.pc := rfl
@[simp] theorem State.raiseFault_cond (s : State) (c : FaultCause) : (s.raiseFault c).cond = s.cond := rfl
@[simp] theorem State.raiseFault_run (s : State) (c : FaultCause) : (s.raiseFault c).run = .faulted c := rfl
@[simp] theorem State.raiseFault_mem (s : State) (c : FaultCause) : (s.raiseFault c).mem = s.mem := rfl
@[simp] theorem State.raiseFault_input (s : State) (c : FaultCause) : (s.raiseFault c).input = s.input := rfl
@[simp] theorem State.raiseFault_output (s : State) (c : FaultCause) : (s.raiseFault c).output = s.output := rfl
@[simp] theorem State.raiseFault_cfg (s : State) (c : FaultCause) : (s.raiseFault c).cfg = s.cfg := rfl
@[simp] theorem State.raiseFault_reg (s : State) (c : FaultCause) (q : Reg) : (s.raiseFault c).reg q = s.reg q := rfl
@[simp] theorem State.raiseFault_cell (s : State) (c : FaultCause) (b : Word) : (s.raiseFault c).cell b = s.cell b := rfl

/-! ### `State.enterHalted` -/

@[simp] theorem State.enterHalted_regs (s : State) : (s.enterHalted).regs = s.regs := rfl
@[simp] theorem State.enterHalted_pc (s : State) : (s.enterHalted).pc = s.pc := rfl
@[simp] theorem State.enterHalted_cond (s : State) : (s.enterHalted).cond = s.cond := rfl
@[simp] theorem State.enterHalted_run (s : State) : (s.enterHalted).run = .halted := rfl
@[simp] theorem State.enterHalted_mem (s : State) : (s.enterHalted).mem = s.mem := rfl
@[simp] theorem State.enterHalted_input (s : State) : (s.enterHalted).input = s.input := rfl
@[simp] theorem State.enterHalted_output (s : State) : (s.enterHalted).output = s.output := rfl
@[simp] theorem State.enterHalted_cfg (s : State) : (s.enterHalted).cfg = s.cfg := rfl
@[simp] theorem State.enterHalted_reg (s : State) (q : Reg) : (s.enterHalted).reg q = s.reg q := rfl
@[simp] theorem State.enterHalted_cell (s : State) (b : Word) : (s.enterHalted).cell b = s.cell b := rfl

/-! ### Compound updates -/

theorem State.advance_eq (s : State) : s.advance = s.setPc (s.pc + 1) := rfl
theorem State.link_eq (s : State) : s.link = s.setReg .r7 s.pc := rfl
theorem State.writeResult_eq (s : State) (dr : Reg) (v : Word) :
    s.writeResult dr v = (s.setReg dr v).setcc v := rfl
@[simp] theorem State.memWrite_eq (s : State) (a v : Word) : s.memWrite a v = s.setCell a v := rfl

@[simp] theorem State.advance_regs (s : State) : (s.advance).regs = s.regs := rfl
@[simp] theorem State.advance_pc (s : State) : (s.advance).pc = s.pc + 1 := rfl
@[simp] theorem State.advance_cond (s : State) : (s.advance).cond = s.cond := rfl
@[simp] theorem State.advance_run (s : State) : (s.advance).run = s.run := rfl
@[simp] theorem State.advance_mem (s : State) : (s.advance).mem = s.mem := rfl
@[simp] theorem State.advance_input (s : State) : (s.advance).input = s.input := rfl
@[simp] theorem State.advance_output (s : State) : (s.advance).output = s.output := rfl
@[simp] theorem State.advance_cfg (s : State) : (s.advance).cfg = s.cfg := rfl
@[simp] theorem State.advance_reg (s : State) (q : Reg) : (s.advance).reg q = s.reg q := rfl
@[simp] theorem State.advance_cell (s : State) (b : Word) : (s.advance).cell b = s.cell b := rfl

@[simp] theorem State.link_regs (s : State) : (s.link).regs = s.regs.set .r7 s.pc := rfl
@[simp] theorem State.link_pc (s : State) : (s.link).pc = s.pc := rfl
@[simp] theorem State.link_cond (s : State) : (s.link).cond = s.cond := rfl
@[simp] theorem State.link_run (s : State) : (s.link).run = s.run := rfl
@[simp] theorem State.link_mem (s : State) : (s.link).mem = s.mem := rfl
@[simp] theorem State.link_input (s : State) : (s.link).input = s.input := rfl
@[simp] theorem State.link_output (s : State) : (s.link).output = s.output := rfl
@[simp] theorem State.link_cfg (s : State) : (s.link).cfg = s.cfg := rfl
@[simp] theorem State.link_cell (s : State) (b : Word) : (s.link).cell b = s.cell b := rfl

@[simp] theorem State.writeResult_regs (s : State) (dr : Reg) (v : Word) : (s.writeResult dr v).regs = s.regs.set dr v := rfl
@[simp] theorem State.writeResult_pc (s : State) (dr : Reg) (v : Word) : (s.writeResult dr v).pc = s.pc := rfl
@[simp] theorem State.writeResult_cond (s : State) (dr : Reg) (v : Word) : (s.writeResult dr v).cond = condOf v := rfl
@[simp] theorem State.writeResult_run (s : State) (dr : Reg) (v : Word) : (s.writeResult dr v).run = s.run := rfl
@[simp] theorem State.writeResult_mem (s : State) (dr : Reg) (v : Word) : (s.writeResult dr v).mem = s.mem := rfl
@[simp] theorem State.writeResult_input (s : State) (dr : Reg) (v : Word) : (s.writeResult dr v).input = s.input := rfl
@[simp] theorem State.writeResult_output (s : State) (dr : Reg) (v : Word) : (s.writeResult dr v).output = s.output := rfl
@[simp] theorem State.writeResult_cfg (s : State) (dr : Reg) (v : Word) : (s.writeResult dr v).cfg = s.cfg := rfl
@[simp] theorem State.writeResult_cell (s : State) (dr : Reg) (v : Word) (b : Word) : (s.writeResult dr v).cell b = s.cell b := rfl

/-! ### Registers -/

@[simp] theorem Regs.get_set_same (x : Regs) (r : Reg) (v : Word) : (x.set r v).get r = v := by
  cases r <;> rfl

theorem Regs.get_set_other (x : Regs) {r q : Reg} (v : Word) (h : q ≠ r) :
    (x.set r v).get q = x.get q := by
  cases r <;> cases q <;> first | rfl | exact absurd rfl h

theorem State.reg_eq (s : State) (r : Reg) : s.reg r = s.regs.get r := rfl

@[simp] theorem State.reg_setReg_same (s : State) (r : Reg) (v : Word) : (s.setReg r v).reg r = v :=
  Regs.get_set_same s.regs r v

theorem State.reg_setReg_other (s : State) {r q : Reg} (v : Word) (h : q ≠ r) :
    (s.setReg r v).reg q = s.reg q :=
  Regs.get_set_other s.regs v h

/-- What a register holds after a register is written. -/
theorem State.reg_setReg (s : State) (r q : Reg) (v : Word) :
    (s.setReg r v).reg q = if q = r then v else s.reg q := by
  by_cases h : q = r
  · subst h
    simp
  · simp [h, State.reg_setReg_other s v h]

@[simp] theorem State.reg_writeResult_same (s : State) (dr : Reg) (v : Word) :
    (s.writeResult dr v).reg dr = v :=
  State.reg_setReg_same s dr v

theorem State.reg_writeResult_other (s : State) {dr q : Reg} (v : Word) (h : q ≠ dr) :
    (s.writeResult dr v).reg q = s.reg q :=
  State.reg_setReg_other s v h

@[simp] theorem State.reg_link_r7 (s : State) : s.link.reg .r7 = s.pc :=
  State.reg_setReg_same s .r7 s.pc

theorem State.reg_link_other (s : State) {q : Reg} (h : q ≠ .r7) : s.link.reg q = s.reg q :=
  State.reg_setReg_other s s.pc h

/-- Two register files with the same content of every register are the same. -/
theorem Regs.ext_get {x y : Regs} (h : ∀ r, x.get r = y.get r) : x = y := by
  obtain ⟨a0, a1, a2, a3, a4, a5, a6, a7⟩ := x
  obtain ⟨b0, b1, b2, b3, b4, b5, b6, b7⟩ := y
  have := h .r0
  have := h .r1
  have := h .r2
  have := h .r3
  have := h .r4
  have := h .r5
  have := h .r6
  have := h .r7
  simp_all [Regs.get]

/-! ### Start of a run -/

@[simp] theorem State.start_reg (cfg : Config) (pc : Word) (m : Memory) (i : InputSource)
    (room : Option Nat) (r : Reg) : (State.start cfg pc m i room).reg r = 0 := by
  cases r <;> rfl

end Sys2Proof.Machine
end

