-- ==== Sys2Proof/Laws/Memory.lean ====
section
/-! SUPPORT. The laws of memory: a read after a write, the canonical form, and that equal contents are
equal data. -/

namespace Sys2Proof.Machine

/-! ### Reading -/

@[simp] theorem Memory.read_nil (a : Nat) : Memory.read [] a = Memory.unlisted := rfl

theorem Memory.read_cons (k : Nat) (v : Word) (m : Memory) (a : Nat) :
    Memory.read ((k, v) :: m) a = if k = a then v else Memory.read m a := rfl

theorem Memory.read_unlist_same (m : Memory) (a : Nat) : (m.unlist a).read a = Memory.unlisted := by
  induction m with
  | nil => rfl
  | cons c m ih =>
    obtain ⟨k, v⟩ := c
    by_cases h : k = a
    · simpa [Memory.unlist, h] using ih
    · have : Memory.unlist ((k, v) :: m) a = (k, v) :: Memory.unlist m a := by simp [Memory.unlist, h]
      rw [this, Memory.read_cons, if_neg h, ih]

theorem Memory.read_unlist_other (m : Memory) {a b : Nat} (hb : b ≠ a) :
    (m.unlist a).read b = m.read b := by
  induction m with
  | nil => rfl
  | cons c m ih =>
    obtain ⟨k, v⟩ := c
    by_cases h : k = a
    · subst h
      have : Memory.unlist ((k, v) :: m) k = Memory.unlist m k := by simp [Memory.unlist]
      rw [this, ih, Memory.read_cons, if_neg (Ne.symm hb)]
    · have : Memory.unlist ((k, v) :: m) a = (k, v) :: Memory.unlist m a := by simp [Memory.unlist, h]
      rw [this, Memory.read_cons, Memory.read_cons, ih]

theorem Memory.unlist_not_mem (m : Memory) (a : Nat) : ∀ c ∈ m.unlist a, c.1 ≠ a := by
  intro c hc
  simpa using (List.mem_filter.mp hc).2

theorem Memory.read_listCell_same (m : Memory) (a : Nat) (v : Word) (h : ∀ c ∈ m, c.1 ≠ a) :
    (Memory.listCell a v m).read a = v := by
  induction m with
  | nil => simp [Memory.listCell, Memory.read_cons]
  | cons c m ih =>
    obtain ⟨k, w⟩ := c
    have hk : k ≠ a := h (k, w) (by simp)
    unfold Memory.listCell
    split
    · simp [Memory.read_cons]
    · rw [Memory.read_cons, if_neg hk, ih fun c hc => h c (List.mem_cons_of_mem _ hc)]

theorem Memory.read_listCell_other (m : Memory) {a b : Nat} (v : Word) (hb : b ≠ a) :
    (Memory.listCell a v m).read b = m.read b := by
  induction m with
  | nil => simp [Memory.listCell, Memory.read_cons, Ne.symm hb]
  | cons c m ih =>
    obtain ⟨k, w⟩ := c
    unfold Memory.listCell
    split
    · rw [Memory.read_cons, if_neg (Ne.symm hb)]
    · rw [Memory.read_cons, Memory.read_cons, ih]

/-- A read after a write to the same address gives the word written. -/
@[simp] theorem Memory.read_write_same (m : Memory) (a : Nat) (v : Word) : (m.write a v).read a = v := by
  unfold Memory.write
  split
  · rename_i h
    rw [Memory.read_unlist_same, h]
  · exact Memory.read_listCell_same _ _ _ (Memory.unlist_not_mem m a)

/-- A write leaves every other address alone. -/
theorem Memory.read_write_other (m : Memory) {a b : Nat} (v : Word) (hb : b ≠ a) :
    (m.write a v).read b = m.read b := by
  unfold Memory.write
  split
  · exact Memory.read_unlist_other m hb
  · rw [Memory.read_listCell_other _ _ hb, Memory.read_unlist_other m hb]

/-! ### Cells of the state -/

theorem State.cell_eq (s : State) (a : Word) : s.cell a = s.mem.read a.toNat := rfl

@[simp] theorem State.cell_setCell_same (s : State) (a v : Word) : (s.setCell a v).cell a = v :=
  Memory.read_write_same s.mem a.toNat v

theorem State.cell_setCell_other (s : State) {a b : Word} (v : Word) (h : b ≠ a) :
    (s.setCell a v).cell b = s.cell b :=
  Memory.read_write_other s.mem v fun e => h (BitVec.eq_of_toNat_eq e)

/-- What a cell holds after a cell is written. -/
theorem State.cell_setCell (s : State) (a b v : Word) :
    (s.setCell a v).cell b = if b = a then v else s.cell b := by
  by_cases h : b = a
  · subst h
    simp
  · simp [h, State.cell_setCell_other s v h]

/-! ### The canonical form -/

theorem Memory.wfFrom_cons {lo k : Nat} {v : Word} {m : Memory} :
    Memory.wfFrom lo ((k, v) :: m) = true ↔
      lo ≤ k ∧ k < 65536 ∧ v ≠ Memory.unlisted ∧ Memory.wfFrom (k + 1) m = true := by
  simp [Memory.wfFrom, and_assoc]

theorem Memory.wfFrom_mono {m : Memory} {lo lo' : Nat} (h : lo' ≤ lo) (hm : Memory.wfFrom lo m = true) :
    Memory.wfFrom lo' m = true := by
  cases m with
  | nil => rfl
  | cons c m =>
    obtain ⟨k, v⟩ := c
    rw [Memory.wfFrom_cons] at hm ⊢
    exact ⟨by omega, hm.2⟩

theorem Memory.wfFrom_unlist {m : Memory} {lo : Nat} (a : Nat) (hm : Memory.wfFrom lo m = true) :
    Memory.wfFrom lo (m.unlist a) = true := by
  induction m generalizing lo with
  | nil => rfl
  | cons c m ih =>
    obtain ⟨k, v⟩ := c
    rw [Memory.wfFrom_cons] at hm
    by_cases h : k = a
    · have : Memory.unlist ((k, v) :: m) a = Memory.unlist m a := by simp [Memory.unlist, h]
      rw [this]
      exact Memory.wfFrom_mono (by omega) (ih hm.2.2.2)
    · have : Memory.unlist ((k, v) :: m) a = (k, v) :: Memory.unlist m a := by simp [Memory.unlist, h]
      rw [this, Memory.wfFrom_cons]
      exact ⟨hm.1, hm.2.1, hm.2.2.1, ih hm.2.2.2⟩

theorem Memory.wfFrom_listCell {m : Memory} {lo a : Nat} {v : Word} (hlo : lo ≤ a) (ha : a < 65536)
    (hv : v ≠ Memory.unlisted) (hne : ∀ c ∈ m, c.1 ≠ a) (hm : Memory.wfFrom lo m = true) :
    Memory.wfFrom lo (Memory.listCell a v m) = true := by
  induction m generalizing lo with
  | nil => exact Memory.wfFrom_cons.mpr ⟨hlo, ha, hv, rfl⟩
  | cons c m ih =>
    obtain ⟨k, w⟩ := c
    have hk : k ≠ a := hne (k, w) (by simp)
    rw [Memory.wfFrom_cons] at hm
    unfold Memory.listCell
    split
    · rw [Memory.wfFrom_cons, Memory.wfFrom_cons]
      exact ⟨hlo, ha, hv, by omega, hm.2⟩
    · rw [Memory.wfFrom_cons]
      exact ⟨hm.1, hm.2.1, hm.2.2.1,
        ih (by omega) (fun c hc => hne c (List.mem_cons_of_mem _ hc)) hm.2.2.2⟩

/-- A write keeps the canonical form. -/
theorem Memory.wf_write {m : Memory} {a : Nat} (v : Word) (ha : a < 65536) (hm : m.wf = true) :
    (m.write a v).wf = true := by
  unfold Memory.write
  split
  · exact Memory.wfFrom_unlist a hm
  · rename_i hv
    exact Memory.wfFrom_listCell (Nat.zero_le a) ha hv (Memory.unlist_not_mem m a)
      (Memory.wfFrom_unlist a hm)

/-- Writing a cell of the state keeps the canonical form. -/
theorem State.wf_setCell {s : State} (a v : Word) (h : s.mem.wf = true) :
    (s.setCell a v).mem.wf = true :=
  Memory.wf_write v a.isLt h

theorem Memory.read_below {m : Memory} {lo a : Nat} (h : a < lo) (hm : Memory.wfFrom lo m = true) :
    m.read a = Memory.unlisted := by
  induction m generalizing lo with
  | nil => rfl
  | cons c m ih =>
    obtain ⟨k, v⟩ := c
    rw [Memory.wfFrom_cons] at hm
    rw [Memory.read_cons, if_neg (by omega), ih (by omega) hm.2.2.2]

theorem Memory.wfFrom_ext {m m' : Memory} {lo : Nat} (hm : Memory.wfFrom lo m = true)
    (hm' : Memory.wfFrom lo m' = true) (h : ∀ a, m.read a = m'.read a) : m = m' := by
  induction m generalizing m' lo with
  | nil =>
    cases m' with
    | nil => rfl
    | cons c m' =>
      obtain ⟨k, v⟩ := c
      rw [Memory.wfFrom_cons] at hm'
      have := h k
      rw [Memory.read_cons, if_pos rfl] at this
      exact absurd this.symm hm'.2.2.1
  | cons c m ih =>
    obtain ⟨k, v⟩ := c
    rw [Memory.wfFrom_cons] at hm
    cases m' with
    | nil =>
      have := h k
      rw [Memory.read_cons, if_pos rfl] at this
      exact absurd this hm.2.2.1
    | cons c' m' =>
      obtain ⟨k', v'⟩ := c'
      rw [Memory.wfFrom_cons] at hm'
      have hk : k = k' := by
        rcases Nat.lt_trichotomy k k' with hlt | heq | hgt
        · have := h k
          rw [Memory.read_cons, if_pos rfl, Memory.read_cons, if_neg (by omega),
            Memory.read_below (by omega) hm'.2.2.2] at this
          exact absurd this hm.2.2.1
        · exact heq
        · have := h k'
          rw [Memory.read_cons, if_neg (by omega), Memory.read_below (by omega) hm.2.2.2,
            Memory.read_cons, if_pos rfl] at this
          exact absurd this.symm hm'.2.2.1
      subst hk
      have hv : v = v' := by simpa [Memory.read_cons] using h k
      subst hv
      rw [ih hm.2.2.2 hm'.2.2.2 fun a => ?_]
      by_cases ha : k = a
      · subst ha
        rw [Memory.read_below (Nat.lt_succ_self k) hm.2.2.2,
          Memory.read_below (Nat.lt_succ_self k) hm'.2.2.2]
      · simpa [Memory.read_cons, ha] using h a

/-- Equal contents are equal data: the canonical form is unique. -/
theorem Memory.ext_of_wf {m m' : Memory} (hm : m.wf = true) (hm' : m'.wf = true)
    (h : ∀ a, m.read a = m'.read a) : m = m' :=
  Memory.wfFrom_ext hm hm' h

/-! ### Placing an image -/

theorem Memory.wf_place {m : Memory} {a : Nat} {ws : List Word} (h : a + ws.length ≤ 65536)
    (hm : m.wf = true) : (m.place a ws).wf = true := by
  induction ws generalizing m a with
  | nil => exact hm
  | cons w ws ih =>
    rw [List.length_cons] at h
    exact ih (by omega) (Memory.wf_write w (by omega) hm)

/-- Cells outside the placed words keep what they held. -/
theorem Memory.read_place_other {m : Memory} {a b : Nat} {ws : List Word}
    (h : b < a ∨ a + ws.length ≤ b) : (m.place a ws).read b = m.read b := by
  induction ws generalizing m a with
  | nil => rfl
  | cons w ws ih =>
    rw [List.length_cons] at h
    rw [Memory.place, ih (by omega), Memory.read_write_other _ _ (by omega)]

/-- Placed word `k` stands in cell `a + k`. -/
theorem Memory.read_place {m : Memory} {a k : Nat} {ws : List Word} (h : k < ws.length) :
    (m.place a ws).read (a + k) = ws[k] := by
  induction ws generalizing m a k with
  | nil => exact absurd h (Nat.not_lt_zero k)
  | cons w ws ih =>
    cases k with
    | zero =>
      rw [Memory.place, Memory.read_place_other (by omega)]
      simp
    | succ k =>
      rw [List.length_cons] at h
      have := ih (m := m.write a w) (a := a + 1) (k := k) (by omega)
      rw [Memory.place, show a + (k + 1) = a + 1 + k by omega, this]
      rfl

end Sys2Proof.Machine
end

