-- ==== Sys2Proof/Laws/Ops.lean ====
section
/-! SUPPORT. One lemma per shared operation that says what it can do: the flag rule, the memory
primitives, the console ports, and the loop of PUTS and PUTSP. Proofs about instructions cite these
instead of unfolding the operations. -/

namespace Sys2Proof.Machine

/-! ### Flags and destination registers -/

/-- `condOf` is the sign of the value (R27). -/
theorem condOf_describes (v : Word) : (condOf v).Describes v := by
  have hv := v.isLt
  have hi := BitVec.toInt_eq_toNat_cond v
  unfold condOf
  split
  · subst v
    show (0#16).toInt = 0
    decide
  · rename_i h
    have hne : v.toNat ≠ 0 := fun h0 => h (BitVec.eq_of_toNat_eq (by simpa using h0))
    split
    · rename_i hm
      rw [BitVec.msb_eq_decide] at hm
      have := of_decide_eq_true hm
      show v.toInt < 0
      omega
    · rename_i hm
      rw [BitVec.msb_eq_decide] at hm
      have : ¬ 2 ^ (16 - 1) ≤ v.toNat := by simpa using hm
      show 0 < v.toInt
      omega

/-- Writing a result changes its destination register and the flags, nothing else. -/
theorem State.writeResult_frame (s : State) (dr : Reg) (v : Word) :
    (s.writeResult dr v).cond.Describes ((s.writeResult dr v).reg dr) ∧
      SameRegsExcept [dr] s (s.writeResult dr v) ∧ (s.writeResult dr v).pc = s.pc ∧
      RegisterOnly s (s.writeResult dr v) := by
  refine ⟨?_, fun r hr => State.reg_writeResult_other _ _ (by simpa using hr), rfl,
    fun _ _ => rfl, ⟨rfl, rfl⟩, rfl, rfl⟩
  simpa using condOf_describes v

/-! ### Sign extension -/

/-- A sign-extended operand has the value of its field as a signed number (R85). -/
theorem toInt_sext {n : Nat} (v : BitVec n) (h : n ≤ 16) : (sext v).toInt = v.toInt := by
  unfold sext
  exact BitVec.toInt_signExtend_of_le h

/-- Adding a sign-extended operand is addition of its signed value modulo 2^16 (R10, R115). -/
theorem toNat_add_sext {n : Nat} (a : Word) (v : BitVec n) (h : n ≤ 16) :
    ((a + sext v).toNat : Int) = ((a.toNat : Int) + v.toInt) % 65536 := by
  rw [← toInt_sext v h, BitVec.toNat_add, BitVec.toInt_eq_toNat_cond]
  have := a.isLt
  have := (sext v).isLt
  split <;> omega

/-! ### Console ports -/

@[simp] theorem InputSource.drop_polls (i : InputSource) : i.drop.polls = i.polls := by
  unfold InputSource.drop
  split <;> rfl

@[simp] theorem InputSource.drop_pollRest (i : InputSource) : i.drop.pollRest = i.pollRest := by
  unfold InputSource.drop
  split <;> rfl

@[simp] theorem InputSource.dropPoll_bytes (i : InputSource) : i.dropPoll.bytes = i.bytes := by
  unfold InputSource.dropPoll
  split <;> rfl

@[simp] theorem InputSource.dropPoll_ending (i : InputSource) : i.dropPoll.ending = i.ending := by
  unfold InputSource.dropPoll
  split <;> rfl

@[simp] theorem InputSource.drop_bytes (i : InputSource) : i.drop.bytes = i.bytes.tail := by
  unfold InputSource.drop
  split <;> rename_i h <;> simp [h]

@[simp] theorem InputSource.dropPoll_polls (i : InputSource) : i.dropPoll.polls = i.polls.tail := by
  unfold InputSource.dropPoll
  split <;> rename_i h <;> simp [h]

/-- Bytes and poll answers are taken independently. -/
theorem InputSource.drop_dropPoll (i : InputSource) : i.dropPoll.drop = i.drop.dropPoll := by
  obtain ⟨bytes, ending, polls, rest⟩ := i
  cases bytes <;> cases polls <;> rfl

theorem InputSource.Later.refl (i : InputSource) : i.Later i := ⟨0, 0, rfl⟩

theorem InputSource.Later.trans {i j l : InputSource} (h : i.Later j) (h' : j.Later l) : i.Later l := by
  have hc : Function.Commute InputSource.drop InputSource.dropPoll := InputSource.drop_dropPoll
  obtain ⟨k, m, rfl⟩ := h
  obtain ⟨k', m', rfl⟩ := h'
  refine ⟨k' + k, m' + m, ?_⟩
  rw [Function.iterate_add_apply, Function.iterate_add_apply, (hc.iterate_iterate k m').eq]

theorem InputSource.Later.drop (i : InputSource) : i.Later i.drop := ⟨1, 0, rfl⟩

theorem InputSource.Later.dropPoll (i : InputSource) : i.Later i.dropPoll := ⟨0, 1, rfl⟩

/-- The listed bytes are taken from the front. -/
theorem InputSource.Later.bytes {i j : InputSource} (h : i.Later j) :
    ∃ k, j.bytes = i.bytes.drop k := by
  obtain ⟨k, l, rfl⟩ := h
  have hp : ∀ n : Nat, ∀ i : InputSource, (InputSource.dropPoll^[n] i).bytes = i.bytes := by
    intro n
    induction n with
    | zero => exact fun _ => rfl
    | succ n ih => exact fun i => (ih _).trans i.dropPoll_bytes
  have hd : ∀ n : Nat, ∀ i : InputSource, (InputSource.drop^[n] i).bytes = i.bytes.drop n := by
    intro n
    induction n with
    | zero => exact fun _ => rfl
    | succ n ih => exact fun i => by rw [Function.iterate_succ_apply, ih, InputSource.drop_bytes, List.drop_tail]
  exact ⟨k, by rw [hd, hp]⟩

/-- A poll moves the input source on by at most one byte. -/
theorem InputSource.poll_later (i : InputSource) : i.Later i.poll.2 := by
  unfold InputSource.poll
  split
  · exact (InputSource.Later.dropPoll i).trans (InputSource.Later.drop _)
  · exact InputSource.Later.dropPoll i

/-- A poll that finds no byte answers "not ready", and the converse. -/
theorem InputSource.poll_eq (i : InputSource) :
    (i.ready = false ∧ i.poll = (none, i.dropPoll)) ∨
      (∃ b, i.ready = true ∧ i.next = some b ∧ i.poll = (some b, i.dropPoll.drop)) := by
  unfold InputSource.poll
  cases hr : i.ready with
  | false => exact .inl ⟨rfl, rfl⟩
  | true =>
    have : i.next.isSome = true := by
      rw [InputSource.ready, Bool.and_eq_true] at hr
      exact hr.2
    obtain ⟨b, hb⟩ := Option.isSome_iff_exists.mp this
    exact .inr ⟨b, rfl, hb, by simp [hb]⟩

/-- What `ConsoleRead` answers: the next byte, or nothing on a source without one. -/
theorem InputSource.read_eq (i : InputSource) :
    (∃ b, i.next = some b ∧ i.read = .byte b i.drop) ∨
      (i.next = none ∧ i.ending = .closed ∧ i.read = .fails) ∨
      (i.next = none ∧ i.ending = .waits ∧ i.read = .waits) := by
  cases hn : i.next with
  | some b => exact .inl ⟨b, rfl, by simp [InputSource.read, hn]⟩
  | none =>
    have he : i.ending = .closed ∨ i.ending = .waits := by
      unfold InputSource.next at hn
      split at hn
      · cases hn
      · unfold InputEnding.next at hn
        split at hn <;> simp_all
    obtain he | he := he <;> simp [InputSource.read, hn, he]

/-- Bytes the sink accepts are appended in order. -/
theorem OutputSink.writeAll_accepts {o : OutputSink} {bs : List Byte}
    (h : o.accepts bs.length = true) :
    o.writeAll bs =
      (true, { written := o.written ++ bs, room := o.room.map (· - bs.length) }) := by
  induction bs generalizing o with
  | nil =>
    obtain ⟨w, room⟩ := o
    cases room <;> simp [OutputSink.writeAll]
  | cons b bs ih =>
    obtain ⟨w, room⟩ := o
    cases room with
    | none =>
      have := ih (o := { written := w ++ [b], room := none }) rfl
      simp [OutputSink.writeAll, OutputSink.write, this]
    | some k =>
      cases k with
      | zero => simp [OutputSink.accepts] at h
      | succ k =>
        have := ih (o := { written := w ++ [b], room := some k })
          (by simpa [OutputSink.accepts] using h)
        simp [OutputSink.writeAll, OutputSink.write, this]

/-- A sink that is too short takes what it has room for and then fails. -/
theorem OutputSink.writeAll_short {o : OutputSink} {bs : List Byte} {n : Nat}
    (hr : o.room = some n) (h : n < bs.length) :
    o.writeAll bs = (false, { written := o.written ++ bs.take n, room := some 0 }) := by
  induction bs generalizing o n with
  | nil => exact absurd h (Nat.not_lt_zero n)
  | cons b bs ih =>
    obtain ⟨w, room⟩ := o
    subst hr
    cases n with
    | zero => simp [OutputSink.writeAll, OutputSink.write]
    | succ k =>
      have := ih (o := { written := w ++ [b], room := some k }) rfl (by simpa using h)
      simp [OutputSink.writeAll, OutputSink.write, this]

/-- Whatever the sink does, it only appends, and what it appends are the first of the bytes given. -/
theorem OutputSink.writeAll_appends (o : OutputSink) (bs : List Byte) :
    ∃ n, (o.writeAll bs).2.written = o.written ++ bs.take n := by
  by_cases h : o.accepts bs.length = true
  · exact ⟨bs.length, by rw [OutputSink.writeAll_accepts h, List.take_length]⟩
  · obtain ⟨w, room⟩ := o
    cases room with
    | none => exact absurd rfl h
    | some n =>
      have hn : n < bs.length := by simpa [OutputSink.accepts] using h
      exact ⟨n, by rw [OutputSink.writeAll_short rfl hn]⟩

/-! ### What the console routines and the reads may change -/

/-- What a read of memory, a console operation or a fault may change: the device cells, the console and
the run state. Output grows, input shrinks. -/
structure QuietStep (s t : State) : Prop where
  regs : t.regs = s.regs
  pc : t.pc = s.pc
  cond : t.cond = s.cond
  cfg : t.cfg = s.cfg
  cells : SameCellsExcept [s.cfg.kbsrAddr, s.cfg.kbdrAddr] s t
  wf : s.mem.wf = true → t.mem.wf = true
  written : ∃ out, t.output.written = s.output.written ++ out
  input : s.input.Later t.input

theorem QuietStep.refl (s : State) : QuietStep s s :=
  ⟨rfl, rfl, rfl, rfl, fun _ _ => rfl, id, ⟨[], by simp⟩, .refl _⟩

theorem QuietStep.trans {s t u : State} (h : QuietStep s t) (k : QuietStep t u) : QuietStep s u := by
  refine ⟨k.regs.trans h.regs, k.pc.trans h.pc, k.cond.trans h.cond, k.cfg.trans h.cfg,
    fun a ha => ?_, k.wf ∘ h.wf, ?_, h.input.trans k.input⟩
  · rw [k.cells a (by rw [h.cfg]; exact ha), h.cells a ha]
  · obtain ⟨o, ho⟩ := h.written
    obtain ⟨o', ho'⟩ := k.written
    exact ⟨o ++ o', by rw [ho', ho, List.append_assoc]⟩

theorem QuietStep.raiseFault (s : State) (c : FaultCause) : QuietStep s (s.raiseFault c) :=
  ⟨rfl, rfl, rfl, rfl, fun _ _ => rfl, id, ⟨[], by simp⟩, .refl _⟩

theorem QuietStep.setInput (s : State) {i : InputSource} (h : s.input.Later i) :
    QuietStep s (s.setInput i) :=
  ⟨rfl, rfl, rfl, rfl, fun _ _ => rfl, id, ⟨[], by simp⟩, h⟩

theorem QuietStep.setOutput (s : State) {o : OutputSink}
    (h : ∃ out, o.written = s.output.written ++ out) : QuietStep s (s.setOutput o) :=
  ⟨rfl, rfl, rfl, rfl, fun _ _ => rfl, id, h, .refl _⟩

/-- Everything the poll of the keyboard can do (R51, R52). -/
theorem State.pollKeyboard_quiet (s : State) : QuietStep s s.pollKeyboard := by
  have hb := s.input.poll_later
  unfold State.pollKeyboard
  split
  · rename_i b i hp
    rw [hp] at hb
    refine ⟨rfl, rfl, rfl, rfl, fun a ha => ?_, fun h => ?_, ⟨[], by simp⟩, hb⟩
    · simp only [List.mem_cons, List.not_mem_nil, or_false, not_or] at ha
      rw [State.cell_setCell_other _ _ ha.2, State.cell_setCell_other _ _ ha.1]
      rfl
    · exact State.wf_setCell _ _ (State.wf_setCell _ _ h)
  · rename_i i hp
    rw [hp] at hb
    refine ⟨rfl, rfl, rfl, rfl, fun a ha => ?_, fun h => ?_, ⟨[], by simp⟩, hb⟩
    · simp only [List.mem_cons, List.not_mem_nil, or_false, not_or] at ha
      rw [State.cell_setCell_other _ _ ha.1]
      rfl
    · exact State.wf_setCell _ _ h

@[simp] theorem State.pollKeyboard_run (s : State) : s.pollKeyboard.run = s.run := by
  unfold State.pollKeyboard
  split <;> rfl

@[simp] theorem State.pollKeyboard_output (s : State) : s.pollKeyboard.output = s.output := by
  unfold State.pollKeyboard
  split <;> rfl

@[simp] theorem State.pollKeyboard_input (s : State) : s.pollKeyboard.input = s.input.poll.2 := by
  unfold State.pollKeyboard
  split <;> simp_all

/-- Everything a `MemRead` can do to the state (R50, R51). -/
theorem State.memRead_quiet (s : State) (a : Word) : QuietStep s (s.memRead a).2 := by
  unfold State.memRead
  split
  · exact s.pollKeyboard_quiet
  · exact QuietStep.refl s

@[simp] theorem State.memRead_regs (s : State) (a : Word) : (s.memRead a).2.regs = s.regs :=
  (s.memRead_quiet a).regs

@[simp] theorem State.memRead_reg (s : State) (a : Word) (r : Reg) :
    (s.memRead a).2.reg r = s.reg r := by
  rw [State.reg_eq, State.memRead_regs, State.reg_eq]

@[simp] theorem State.memRead_pc (s : State) (a : Word) : (s.memRead a).2.pc = s.pc :=
  (s.memRead_quiet a).pc

@[simp] theorem State.memRead_cond (s : State) (a : Word) : (s.memRead a).2.cond = s.cond :=
  (s.memRead_quiet a).cond

@[simp] theorem State.memRead_cfg (s : State) (a : Word) : (s.memRead a).2.cfg = s.cfg :=
  (s.memRead_quiet a).cfg

@[simp] theorem State.memRead_run (s : State) (a : Word) : (s.memRead a).2.run = s.run := by
  unfold State.memRead
  split <;> simp

@[simp] theorem State.memRead_output (s : State) (a : Word) : (s.memRead a).2.output = s.output := by
  unfold State.memRead
  split <;> simp

/-- A `MemRead` changes at most the cells its address may touch. -/
theorem State.memRead_cells (s : State) (a : Word) :
    SameCellsExcept (s.cellsTouchedByRead a) s (s.memRead a).2 := by
  intro b hb
  unfold State.cellsTouchedByRead at hb
  unfold State.memRead
  split
  · rename_i h
    rw [if_pos h] at hb
    exact s.pollKeyboard_quiet.cells b hb
  · rfl

/-- Writing bytes and going on: either all were written and the rest runs, or the I/O fault. -/
theorem State.writeThen_next {s t : State} {bs : List Byte} {k : State → Result}
    (h : s.writeThen bs k = .next t) :
    (∃ o, s.output.writeAll bs = (true, o) ∧ k (s.setOutput o) = .next t) ∨
      (∃ o, s.output.writeAll bs = (false, o) ∧ t = (s.setOutput o).raiseFault .ioFault) := by
  unfold State.writeThen at h
  split at h
  · rename_i o ho
    exact .inl ⟨o, ho, h⟩
  · rename_i o ho
    exact .inr ⟨o, ho, (Host.Outcome.next.inj h).symm⟩

theorem QuietStep.writeAll (s : State) {bs : List Byte} {ok : Bool} {o : OutputSink}
    (h : s.output.writeAll bs = (ok, o)) : QuietStep s (s.setOutput o) := by
  obtain ⟨n, hn⟩ := s.output.writeAll_appends bs
  rw [h] at hn
  exact QuietStep.setOutput s ⟨_, hn⟩

/-- Everything the loop of PUTS and PUTSP can do when it ends (R154, R156). -/
theorem stringLoop_next {f : Word → List Byte} {n : Nat} {a : Word} {s t : State}
    (h : stringLoop f n a s = .next t) :
    QuietStep s t ∧ (t.run = s.run ∨ t.run = .faulted .ioFault) := by
  induction n generalizing a s with
  | zero => simp [stringLoop] at h
  | succ n ih =>
    unfold stringLoop at h
    have hr := s.memRead_quiet a
    split at h
    · cases h
      exact ⟨hr, .inl (by simp)⟩
    · obtain ⟨o, ho, hk⟩ | ⟨o, ho, rfl⟩ := State.writeThen_next h
      · obtain ⟨hq, hrun⟩ := ih hk
        exact ⟨hr.trans ((QuietStep.writeAll _ ho).trans hq), by simpa using hrun⟩
      · exact ⟨hr.trans ((QuietStep.writeAll _ ho).trans (QuietStep.raiseFault _ _)), .inr rfl⟩

/-! ### The same machine with other memory, or with earlier output -/

@[simp] theorem State.withMemory_regs (s : State) (m : Memory) : (s.withMemory m).regs = s.regs := rfl
@[simp] theorem State.withMemory_pc (s : State) (m : Memory) : (s.withMemory m).pc = s.pc := rfl
@[simp] theorem State.withMemory_cond (s : State) (m : Memory) : (s.withMemory m).cond = s.cond := rfl
@[simp] theorem State.withMemory_run (s : State) (m : Memory) : (s.withMemory m).run = s.run := rfl
@[simp] theorem State.withMemory_mem (s : State) (m : Memory) : (s.withMemory m).mem = m := rfl
@[simp] theorem State.withMemory_input (s : State) (m : Memory) : (s.withMemory m).input = s.input := rfl
@[simp] theorem State.withMemory_output (s : State) (m : Memory) : (s.withMemory m).output = s.output := rfl
@[simp] theorem State.withMemory_cfg (s : State) (m : Memory) : (s.withMemory m).cfg = s.cfg := rfl
@[simp] theorem State.withMemory_reg (s : State) (m : Memory) (r : Reg) : (s.withMemory m).reg r = s.reg r := rfl

@[simp] theorem State.withEarlierOutput_regs (s : State) (p : List Byte) : (s.withEarlierOutput p).regs = s.regs := rfl
@[simp] theorem State.withEarlierOutput_pc (s : State) (p : List Byte) : (s.withEarlierOutput p).pc = s.pc := rfl
@[simp] theorem State.withEarlierOutput_cond (s : State) (p : List Byte) : (s.withEarlierOutput p).cond = s.cond := rfl
@[simp] theorem State.withEarlierOutput_run (s : State) (p : List Byte) : (s.withEarlierOutput p).run = s.run := rfl
@[simp] theorem State.withEarlierOutput_mem (s : State) (p : List Byte) : (s.withEarlierOutput p).mem = s.mem := rfl
@[simp] theorem State.withEarlierOutput_input (s : State) (p : List Byte) : (s.withEarlierOutput p).input = s.input := rfl
@[simp] theorem State.withEarlierOutput_output (s : State) (p : List Byte) : (s.withEarlierOutput p).output = { s.output with written := p ++ s.output.written } := rfl
@[simp] theorem State.withEarlierOutput_cfg (s : State) (p : List Byte) : (s.withEarlierOutput p).cfg = s.cfg := rfl
@[simp] theorem State.withEarlierOutput_reg (s : State) (p : List Byte) (r : Reg) : (s.withEarlierOutput p).reg r = s.reg r := rfl
@[simp] theorem State.withEarlierOutput_cell (s : State) (p : List Byte) (a : Word) : (s.withEarlierOutput p).cell a = s.cell a := rfl

/-! ### What linking changes -/

/-- The link writes R7 and nothing else. -/
theorem State.link_frame (s : State) :
    s.link.reg .r7 = s.pc ∧ SameRegsExcept [.r7] s s.link ∧ s.link.pc = s.pc ∧
      s.link.cond = s.cond ∧ RegisterOnly s s.link :=
  ⟨s.reg_link_r7, fun _ hr => s.reg_link_other (by simpa using hr), rfl, rfl, fun _ _ => rfl,
    ⟨rfl, rfl⟩, rfl, rfl⟩

end Sys2Proof.Machine
end

