-- ==== Sys2Proof/Laws/Input.lean ====
section
/-! SUPPORT. How many polls the host answers "ready" and how many bytes that are not zero the source
delivers: what one poll and one byte make of these counts. -/

namespace Sys2Proof.Machine

theorem freeNonZeroByte_ne (count : Nat) : freeNonZeroByte count ≠ 0 := by
  have hlt := (Config.freeInputByte count).isLt
  intro h
  have h0 : ((Config.freeInputByte count).val + 1) % 2 ^ 8 = 0 := by
    simpa [freeNonZeroByte] using congrArg BitVec.toNat h
  omega

/-- The byte a stream delivers, and the stream after it. -/
theorem InputSource.textLeft_step {i : InputSource} {b : Byte} (h : i.next = some b) (hb : b ≠ 0) :
    i.textLeft ≠ some 0 ∧ i.drop.textLeft = i.textLeft.map (· - 1) := by
  obtain ⟨bytes, ending, polls, rest⟩ := i
  cases bytes with
  | nil =>
    match ending with
    | .closed => cases h
    | .waits => cases h
    | .endless c =>
      obtain rfl : c = b := by simpa [InputSource.next, InputEnding.next] using h
      simp [InputSource.textLeft, InputSource.drop, InputEnding.drop, show c ≠ 0#8 from hb]
    | .stream n (some 0) => exact absurd (Option.some.inj h).symm hb
    | .stream n (some (k + 1)) => simp [InputSource.textLeft, InputSource.drop, InputEnding.drop]
    | .stream n none => simp [InputSource.textLeft, InputSource.drop, InputEnding.drop]
  | cons c cs =>
    obtain rfl : c = b := by simpa [InputSource.next] using h
    have hc : (c == 0) = false := by simpa using hb
    simp only [InputSource.textLeft, InputSource.drop, List.findIdx?_cons, hc]
    cases hf : cs.findIdx? (· == 0) with
    | some k => simp
    | none =>
      match ending with
      | .closed => simp
      | .waits => simp
      | .endless d => by_cases hd : d = 0 <;> simp [hd]
      | .stream n none => simp
      | .stream n (some k) => simp

/-- A source whose text is over delivers a zero byte next, or none. -/
theorem InputSource.next_of_textLeft_zero {i : InputSource} {b : Byte} (h : i.textLeft = some 0)
    (hb : i.next = some b) : b = 0 := by
  by_contra hne
  exact (InputSource.textLeft_step hb hne).1 h

/-- A source whose text never ends always has a next byte, which is not zero. -/
theorem InputSource.next_of_textLeft_none {i : InputSource} (h : i.textLeft = none) :
    ∃ b, i.next = some b ∧ b ≠ 0 := by
  obtain ⟨bytes, ending, polls, rest⟩ := i
  cases bytes with
  | nil =>
    match ending with
    | .closed => cases h
    | .waits => cases h
    | .endless c =>
      by_cases hc : c = 0
      · simp [InputSource.textLeft, hc] at h
      · exact ⟨c, rfl, hc⟩
    | .stream n (some k) => simp [InputSource.textLeft] at h
    | .stream n none => exact ⟨_, rfl, freeNonZeroByte_ne n⟩
  | cons c cs =>
    refine ⟨c, rfl, fun hc => ?_⟩
    simp [InputSource.textLeft, List.findIdx?_cons, hc] at h

/-- A poll answered "ready" is one of those counted. -/
theorem InputSource.pollsLeft_step {i : InputSource} (h : i.answer = true) :
    i.pollsLeft ≠ some 0 ∧ i.dropPoll.pollsLeft = i.pollsLeft.map (· - 1) := by
  obtain ⟨bytes, ending, polls, rest⟩ := i
  cases polls with
  | nil =>
    match rest with
    | .always p =>
      obtain rfl : p = true := h
      simp [InputSource.pollsLeft, InputSource.dropPoll, PollTail.drop]
    | .varying n (some 0) => cases h
    | .varying n (some (k + 1)) => simp [InputSource.pollsLeft, InputSource.dropPoll, PollTail.drop]
    | .varying n none => simp [InputSource.pollsLeft, InputSource.dropPoll, PollTail.drop]
  | cons p ps =>
    obtain rfl : p = true := h
    simp only [InputSource.pollsLeft, InputSource.dropPoll, List.findIdx?_cons]
    cases hf : ps.findIdx? (· == false) with
    | some k => simp
    | none =>
      match rest with
      | .always p => cases p <;> simp
      | .varying n none => simp
      | .varying n (some k) => simp

/-- A host that answers every poll "ready" answers this one so. -/
theorem InputSource.answer_of_pollsLeft_none {i : InputSource} (h : i.pollsLeft = none) :
    i.answer = true := by
  obtain ⟨bytes, ending, polls, rest⟩ := i
  cases polls with
  | nil =>
    match rest with
    | .always true => rfl
    | .always false => simp [InputSource.pollsLeft] at h
    | .varying n (some k) => simp [InputSource.pollsLeft] at h
    | .varying n none => rfl
  | cons p ps =>
    cases p with
    | true => rfl
    | false => simp [InputSource.pollsLeft, List.findIdx?_cons] at h

@[simp] theorem InputSource.dropPoll_textLeft (i : InputSource) : i.dropPoll.textLeft = i.textLeft := by
  simp [InputSource.textLeft]

@[simp] theorem InputSource.drop_pollsLeft (i : InputSource) : i.drop.pollsLeft = i.pollsLeft := by
  simp [InputSource.pollsLeft]

/-- The byte a poll takes is the next one. -/
@[simp] theorem InputSource.dropPoll_next (i : InputSource) : i.dropPoll.next = i.next := by
  simp [InputSource.next]

end Sys2Proof.Machine
end

