-- ==== Sys2Proof/Laws/PerInstr.lean ====
section
/-! SUPPORT. A family of statements about every instruction as syntax: the top four bits of its
canonical word are its opcode number in the table of spec 30_encoding R82. -/

namespace Sys2Proof

/-- The opcode number of an instruction (R82). -/
def Laws.opcodeNumber : Instr → BitVec 4
  | .br _ _ _ _ => 0x0
  | .addReg _ _ _ => 0x1
  | .addImm _ _ _ => 0x1
  | .ld _ _ => 0x2
  | .st _ _ => 0x3
  | .jsr _ => 0x4
  | .jsrr _ => 0x4
  | .andReg _ _ _ => 0x5
  | .andImm _ _ _ => 0x5
  | .ldr _ _ _ => 0x6
  | .str _ _ _ => 0x7
  | .rti => 0x8
  | .notReg _ _ => 0x9
  | .ldi _ _ => 0xA
  | .sti _ _ => 0xB
  | .jmp _ => 0xC
  | .res => 0xD
  | .lea _ _ => 0xE
  | .getc => 0xF
  | .out => 0xF
  | .puts => 0xF
  | .inChar => 0xF
  | .putsp => 0xF
  | .halt => 0xF
  | .trapUnrecognised _ => 0xF

/-- Bits [15:12] of the canonical word are the opcode number. -/
def Laws.OpcodeField.Statement (i : Instr) : Prop := (encode i).extractLsb' 12 4 = Laws.opcodeNumber i

/-- A field of four bits is what its bits are. -/
theorem Laws.opcodeField_of_bits {i : Instr}
    (h0 : (encode i).getLsbD 12 = (Laws.opcodeNumber i).getLsbD 0)
    (h1 : (encode i).getLsbD 13 = (Laws.opcodeNumber i).getLsbD 1)
    (h2 : (encode i).getLsbD 14 = (Laws.opcodeNumber i).getLsbD 2)
    (h3 : (encode i).getLsbD 15 = (Laws.opcodeNumber i).getLsbD 3) : Laws.OpcodeField.Statement i := by
  apply BitVec.eq_of_getLsbD_eq
  intro k hk
  rw [BitVec.getLsbD_extractLsb']
  obtain rfl | rfl | rfl | rfl : k = 0 ∨ k = 1 ∨ k = 2 ∨ k = 3 := by omega
  · simpa using h0
  · simpa using h1
  · simpa using h2
  · simpa using h3

theorem Laws.OpcodeField.br (n z p : Bool) (off : BitVec 9) :
    Laws.OpcodeField.Statement (.br n z p off) := by
  apply Laws.opcodeField_of_bits
  all_goals
    rw [encode]
    repeat rw [BitVec.getLsbD_append]
    simp [Laws.opcodeNumber]

theorem Laws.OpcodeField.addReg (dr sr1 sr2 : Reg) :
    Laws.OpcodeField.Statement (.addReg dr sr1 sr2) := by
  apply Laws.opcodeField_of_bits
  all_goals
    rw [encode]
    repeat rw [BitVec.getLsbD_append]
    simp [Laws.opcodeNumber]

theorem Laws.OpcodeField.addImm (dr sr1 : Reg) (imm : BitVec 5) :
    Laws.OpcodeField.Statement (.addImm dr sr1 imm) := by
  apply Laws.opcodeField_of_bits
  all_goals
    rw [encode]
    repeat rw [BitVec.getLsbD_append]
    simp [Laws.opcodeNumber]

theorem Laws.OpcodeField.ld (dr : Reg) (off : BitVec 9) :
    Laws.OpcodeField.Statement (.ld dr off) := by
  apply Laws.opcodeField_of_bits
  all_goals
    rw [encode]
    repeat rw [BitVec.getLsbD_append]
    simp [Laws.opcodeNumber]

theorem Laws.OpcodeField.st (sr : Reg) (off : BitVec 9) :
    Laws.OpcodeField.Statement (.st sr off) := by
  apply Laws.opcodeField_of_bits
  all_goals
    rw [encode]
    repeat rw [BitVec.getLsbD_append]
    simp [Laws.opcodeNumber]

theorem Laws.OpcodeField.jsr (off : BitVec 11) :
    Laws.OpcodeField.Statement (.jsr off) := by
  apply Laws.opcodeField_of_bits
  all_goals
    rw [encode]
    repeat rw [BitVec.getLsbD_append]
    simp [Laws.opcodeNumber]

theorem Laws.OpcodeField.jsrr (base : Reg) :
    Laws.OpcodeField.Statement (.jsrr base) := by
  apply Laws.opcodeField_of_bits
  all_goals
    rw [encode]
    repeat rw [BitVec.getLsbD_append]
    simp [Laws.opcodeNumber]

theorem Laws.OpcodeField.andReg (dr sr1 sr2 : Reg) :
    Laws.OpcodeField.Statement (.andReg dr sr1 sr2) := by
  apply Laws.opcodeField_of_bits
  all_goals
    rw [encode]
    repeat rw [BitVec.getLsbD_append]
    simp [Laws.opcodeNumber]

theorem Laws.OpcodeField.andImm (dr sr1 : Reg) (imm : BitVec 5) :
    Laws.OpcodeField.Statement (.andImm dr sr1 imm) := by
  apply Laws.opcodeField_of_bits
  all_goals
    rw [encode]
    repeat rw [BitVec.getLsbD_append]
    simp [Laws.opcodeNumber]

theorem Laws.OpcodeField.ldr (dr base : Reg) (off : BitVec 6) :
    Laws.OpcodeField.Statement (.ldr dr base off) := by
  apply Laws.opcodeField_of_bits
  all_goals
    rw [encode]
    repeat rw [BitVec.getLsbD_append]
    simp [Laws.opcodeNumber]

theorem Laws.OpcodeField.str (sr base : Reg) (off : BitVec 6) :
    Laws.OpcodeField.Statement (.str sr base off) := by
  apply Laws.opcodeField_of_bits
  all_goals
    rw [encode]
    repeat rw [BitVec.getLsbD_append]
    simp [Laws.opcodeNumber]

theorem Laws.OpcodeField.rti : Laws.OpcodeField.Statement .rti := by
  apply Laws.opcodeField_of_bits <;> rfl

theorem Laws.OpcodeField.notReg (dr sr : Reg) :
    Laws.OpcodeField.Statement (.notReg dr sr) := by
  apply Laws.opcodeField_of_bits
  all_goals
    rw [encode]
    repeat rw [BitVec.getLsbD_append]
    simp [Laws.opcodeNumber]

theorem Laws.OpcodeField.ldi (dr : Reg) (off : BitVec 9) :
    Laws.OpcodeField.Statement (.ldi dr off) := by
  apply Laws.opcodeField_of_bits
  all_goals
    rw [encode]
    repeat rw [BitVec.getLsbD_append]
    simp [Laws.opcodeNumber]

theorem Laws.OpcodeField.sti (sr : Reg) (off : BitVec 9) :
    Laws.OpcodeField.Statement (.sti sr off) := by
  apply Laws.opcodeField_of_bits
  all_goals
    rw [encode]
    repeat rw [BitVec.getLsbD_append]
    simp [Laws.opcodeNumber]

theorem Laws.OpcodeField.jmp (base : Reg) :
    Laws.OpcodeField.Statement (.jmp base) := by
  apply Laws.opcodeField_of_bits
  all_goals
    rw [encode]
    repeat rw [BitVec.getLsbD_append]
    simp [Laws.opcodeNumber]

theorem Laws.OpcodeField.res : Laws.OpcodeField.Statement .res := by
  apply Laws.opcodeField_of_bits <;> rfl

theorem Laws.OpcodeField.lea (dr : Reg) (off : BitVec 9) :
    Laws.OpcodeField.Statement (.lea dr off) := by
  apply Laws.opcodeField_of_bits
  all_goals
    rw [encode]
    repeat rw [BitVec.getLsbD_append]
    simp [Laws.opcodeNumber]

theorem Laws.OpcodeField.getc : Laws.OpcodeField.Statement .getc := by
  apply Laws.opcodeField_of_bits <;> rfl

theorem Laws.OpcodeField.out : Laws.OpcodeField.Statement .out := by
  apply Laws.opcodeField_of_bits <;> rfl

theorem Laws.OpcodeField.puts : Laws.OpcodeField.Statement .puts := by
  apply Laws.opcodeField_of_bits <;> rfl

theorem Laws.OpcodeField.inChar : Laws.OpcodeField.Statement .inChar := by
  apply Laws.opcodeField_of_bits <;> rfl

theorem Laws.OpcodeField.putsp : Laws.OpcodeField.Statement .putsp := by
  apply Laws.opcodeField_of_bits <;> rfl

theorem Laws.OpcodeField.halt : Laws.OpcodeField.Statement .halt := by
  apply Laws.opcodeField_of_bits <;> rfl

theorem Laws.OpcodeField.trapUnrecognised (vect : BitVec 8) :
    Laws.OpcodeField.Statement (.trapUnrecognised vect) := by
  apply Laws.opcodeField_of_bits
  all_goals
    rw [encode]
    repeat rw [BitVec.getLsbD_append]
    simp [Laws.opcodeNumber]

end Sys2Proof
end

