-- ==== Sys2Proof/Laws/Step.lean ====
section
/-! SUPPORT. The step: its cases, what a run keeps, and that `withFetchWord` makes the next step run
the word it is given. -/

namespace Sys2Proof.Machine

/-- A step that answers a next state is a cycle of a running machine. -/
theorem step_next {s t : State} (h : step s = .next t) :
    s.run = .running ∧ exec (decode s.fetch.1) s.fetch.2 = .next t := by
  unfold step at h
  split at h
  · rename_i hr
    exact ⟨hr, h⟩
  · cases h
  · cases h

/-- The fetch moves the machine quietly, but for the increment of `pc`. -/
theorem State.fetch_state (s : State) : s.fetch.2 = (s.memRead s.pc).2.setPc (s.pc + 1) := by
  simp [State.fetch, State.advance_eq]

/-- What every step keeps, every run keeps. -/
theorem run_keeps (M : Host.Core) {P : M.State → Prop}
    (hstep : ∀ s t, P s → M.step s = .next t → P t) (k : Nat) :
    ∀ s t, P s → M.run k s = .next t → P t := by
  induction k with
  | zero =>
    intro s t hs h
    cases h
    exact hs
  | succ k ih =>
    intro s t hs h
    rw [Host.Core.run] at h
    split at h
    · rename_i u hu
      exact ih u t (hstep s u hs hu) h
    · cases h
    · cases h

/-- No address is its own successor modulo 2^16. -/
theorem succ_ne_self (a : Word) : a + 1 ≠ a := by
  intro h
  have := congrArg BitVec.toNat h
  rw [BitVec.toNat_add] at this
  change (a.toNat + 1) % 65536 = a.toNat at this
  have := a.isLt
  omega

/-- The next step of `s.withFetchWord 16 w` runs exactly the instruction whose word is `w`. -/
theorem step_withFetchWord (s : State) {w : Nat} (hw : w < 65536) :
    ∃ u, step (s.withFetchWord 16 w) = exec (decode (BitVec.ofNat 16 w)) u ∧ u.regs = s.regs ∧
      u.cond = s.cond ∧ u.input = s.input ∧ u.output = s.output ∧ u.cfg = s.cfg := by
  have hmod : w % 2 ^ 16 = w := Nat.mod_eq_of_lt hw
  have hpc : (s.withFetchWord 16 w).pc ≠ (s.withFetchWord 16 w).cfg.kbsrAddr := by
    show (if s.pc = s.cfg.kbsrAddr then s.pc + 1 else s.pc) ≠ s.cfg.kbsrAddr
    split
    · rename_i h
      rw [← h]
      exact succ_ne_self s.pc
    · rename_i h
      exact h
  refine ⟨(s.withFetchWord 16 w).setPc ((s.withFetchWord 16 w).pc + 1), ?_, rfl, rfl, rfl, rfl, rfl⟩
  have hcell : (s.withFetchWord 16 w).cell (s.withFetchWord 16 w).pc = BitVec.ofNat 16 w := by
    unfold State.withFetchWord
    rw [hmod]
    exact State.cell_setCell_same _ _ _
  have hrun : (s.withFetchWord 16 w).run = .running := rfl
  unfold step
  rw [hrun]
  simp only [State.fetch, State.memRead, if_neg hpc, hcell, State.advance_eq]

end Sys2Proof.Machine
end

