-- ==== Sys2Proof/Laws/String.lean ====
section
/-! SUPPORT. The loop of PUTS and PUTSP (spec 44_trap R154, R156): what it writes of a text, what it writes
to a sink that is too short, how long a text can be, and when there is none. -/

namespace Sys2Proof.Machine

/-! ### What one read does -/

/-- A read is the same whatever the output sink holds. -/
theorem State.memRead_setOutput (s : State) (o : OutputSink) (a : Word) :
    (s.setOutput o).memRead a = ((s.memRead a).1, (s.memRead a).2.setOutput o) := by
  have hp : (s.setOutput o).pollKeyboard = s.pollKeyboard.setOutput o := by
    unfold State.pollKeyboard
    rw [State.setOutput_input]
    split <;> rfl
  by_cases h : a = s.cfg.kbsrAddr <;> simp [State.memRead, h, hp]

/-- A read away from `KBSR_ADDR` is plain. -/
theorem State.memRead_plain {s : State} {a : Word} (h : a ≠ s.cfg.kbsrAddr) :
    s.memRead a = (s.cell a, s) := by
  simp [State.memRead, h]

/-- A read of `KBSR_ADDR` that is not zero: the host answered "ready", and the byte, which is in KBDR and
not zero if KBDR is the same cell, was taken. -/
theorem State.memRead_status {s : State} (h : (s.memRead s.cfg.kbsrAddr).1 ≠ 0) :
    ∃ b, s.input.answer = true ∧ s.input.next = some b ∧
      (s.memRead s.cfg.kbsrAddr).2.input = s.input.dropPoll.drop ∧
      (s.memRead s.cfg.kbsrAddr).2.cell s.cfg.kbdrAddr = zext8 b ∧
      (s.cfg.kbdrAddr = s.cfg.kbsrAddr → (s.memRead s.cfg.kbsrAddr).1 = zext8 b) := by
  obtain ⟨-, hp⟩ | ⟨b, hr, hb, hp⟩ := s.input.poll_eq
  · refine absurd ?_ h
    simp [State.memRead, State.pollKeyboard, hp]
  · have hm : s.memRead s.cfg.kbsrAddr = (s.pollKeyboard.cell s.cfg.kbsrAddr, s.pollKeyboard) := by
      simp [State.memRead]
    have hk : s.pollKeyboard =
        ((s.setInput s.input.dropPoll.drop).setCell s.cfg.kbsrAddr 0x8000).setCell s.cfg.kbdrAddr
          (zext8 b) := by
      unfold State.pollKeyboard
      rw [hp]
    rw [InputSource.ready, Bool.and_eq_true] at hr
    rw [hm, hk]
    exact ⟨b, hr.1, hb, rfl, by simp, fun he => by simp [he]⟩

/-- A read changes no cell but the device cells. -/
theorem State.memRead_cell {s : State} (a : Word) {z : Word} (h1 : z ≠ s.cfg.kbsrAddr)
    (h2 : z ≠ s.cfg.kbdrAddr) : (s.memRead a).2.cell z = s.cell z :=
  (s.memRead_quiet a).cells z (by simp [h1, h2])

/-! ### Distances -/

theorem sub_toNat_step {a z : Word} (h : z ≠ a) : (z - (a + 1)).toNat + 1 = (z - a).toNat := by
  have h1 : z.toNat ≠ a.toNat := fun e => h (BitVec.eq_of_toNat_eq e)
  have h2 := a.isLt
  have h3 := z.isLt
  have h5 : (1 : Word).toNat = 1 := rfl
  simp only [BitVec.toNat_sub, BitVec.toNat_add, h5]
  omega

theorem sub_self_toNat (a : Word) : (a - a).toNat = 0 := by simp

theorem sub_succ_toNat (a : Word) : (a - (a + 1)).toNat = 65535 := by
  have h2 := a.isLt
  have h5 : (1 : Word).toNat = 1 := rfl
  simp only [BitVec.toNat_sub, BitVec.toNat_add, h5]
  omega

theorem eq_of_sub_toNat {a z : Word} (h : (z - a).toNat = 0) : z = a := by
  by_contra hne
  have := sub_toNat_step hne
  omega

theorem add_ofNat_succ (a : Word) (k : Nat) :
    a + BitVec.ofNat 16 (k + 1) = a + 1 + BitVec.ofNat 16 k := by
  rw [Nat.add_comm, BitVec.ofNat_add, BitVec.add_assoc]
  rfl

/-! ### Texts -/

/-- Reading words is quiet, and leaves registers, run state and output alone. -/
theorem ReadsWords.quiet {cs : List Word} {a : Word} {s u : State} (h : ReadsWords cs a s u) :
    QuietStep s u ∧ u.run = s.run ∧ u.output = s.output := by
  induction cs generalizing a s with
  | nil =>
    cases h
    exact ⟨.refl _, rfl, rfl⟩
  | cons c cs ih =>
    obtain ⟨-, -, h⟩ := h
    obtain ⟨hq, hr, ho⟩ := ih h
    exact ⟨(s.memRead_quiet a).trans hq, hr.trans (by simp), ho.trans (by simp)⟩

theorem ReadsText.quiet {cs : List Word} {a : Word} {s u : State} (h : ReadsText cs a s u) :
    QuietStep s u ∧ u.run = s.run ∧ u.output = s.output := by
  obtain ⟨v, hv, hu⟩ := h
  obtain ⟨hq, hr, ho⟩ := hv.quiet
  have hu2 : (v.memRead (a + BitVec.ofNat 16 cs.length)).2 = u := congrArg Prod.snd hu
  rw [← hu2]
  exact ⟨hq.trans (v.memRead_quiet _), by simp [hr], by simp [ho]⟩

/-- A text of at least one word. -/
theorem readsText_cons {c : Word} {cs : List Word} {a : Word} {s u : State} :
    ReadsText (c :: cs) a s u ↔
      (s.memRead a).1 = c ∧ c ≠ 0 ∧ ReadsText cs (a + 1) (s.memRead a).2 u := by
  unfold ReadsText
  simp only [ReadsWords, List.length_cons, add_ofNat_succ]
  constructor
  · rintro ⟨v, ⟨h1, h2, h3⟩, h4⟩
    exact ⟨h1, h2, v, h3, h4⟩
  · rintro ⟨h1, h2, v, h3, h4⟩
    exact ⟨v, ⟨h1, h2, h3⟩, h4⟩

theorem readsText_nil {a : Word} {s u : State} : ReadsText [] a s u ↔ s.memRead a = (0, u) := by
  unfold ReadsText
  simp [ReadsWords]

/-- The first `n` reads reach the end of the text, or are all words. -/
theorem text_or_words (n : Nat) : ∀ (a : Word) (s : State),
    (∃ cs u, cs.length < n ∧ ReadsText cs a s u) ∨ (∃ cs u, cs.length = n ∧ ReadsWords cs a s u) := by
  induction n with
  | zero => exact fun a s => .inr ⟨[], s, rfl, rfl⟩
  | succ n ih =>
    intro a s
    by_cases hz : (s.memRead a).1 = 0
    · exact .inl ⟨[], (s.memRead a).2, Nat.succ_pos n, readsText_nil.mpr (Prod.ext hz rfl)⟩
    · obtain ⟨cs, u, hn, h⟩ | ⟨cs, u, hn, h⟩ := ih (a + 1) (s.memRead a).2
      · exact .inl ⟨_ :: cs, u, Nat.succ_lt_succ hn, readsText_cons.mpr ⟨rfl, hz, h⟩⟩
      · exact .inr ⟨_ :: cs, u, congrArg (· + 1) hn, rfl, hz, h⟩

/-- Reading is the same whatever the output sink holds. -/
theorem ReadsWords.setOutput {cs : List Word} {a : Word} {s u : State} (h : ReadsWords cs a s u)
    (o : OutputSink) : ReadsWords cs a (s.setOutput o) (u.setOutput o) := by
  induction cs generalizing a s with
  | nil =>
    cases h
    rfl
  | cons c cs ih =>
    obtain ⟨h1, h2, h3⟩ := h
    refine ⟨?_, h2, ?_⟩ <;> rw [State.memRead_setOutput]
    · exact h1
    · exact ih h3

theorem ReadsText.setOutput {cs : List Word} {a : Word} {s u : State} (h : ReadsText cs a s u)
    (o : OutputSink) : ReadsText cs a (s.setOutput o) (u.setOutput o) := by
  obtain ⟨v, hv, hu⟩ := h
  exact ⟨_, hv.setOutput o, by rw [State.memRead_setOutput, hu]⟩

/-- Reading does not depend on the registers. -/
theorem State.memRead_setReg (s : State) (r : Reg) (v a : Word) :
    (s.setReg r v).memRead a = ((s.memRead a).1, (s.memRead a).2.setReg r v) := by
  have hp : (s.setReg r v).pollKeyboard = s.pollKeyboard.setReg r v := by
    unfold State.pollKeyboard
    rw [State.setReg_input]
    split <;> rfl
  by_cases h : a = s.cfg.kbsrAddr <;> simp [State.memRead, h, hp]

theorem ReadsWords.setReg {cs : List Word} {a : Word} {s u : State} (h : ReadsWords cs a s u)
    (r : Reg) (v : Word) : ReadsWords cs a (s.setReg r v) (u.setReg r v) := by
  induction cs generalizing a s with
  | nil =>
    cases h
    rfl
  | cons c cs ih =>
    obtain ⟨h1, h2, h3⟩ := h
    refine ⟨?_, h2, ?_⟩ <;> rw [State.memRead_setReg]
    · exact h1
    · exact ih h3

/-- The text a routine reads after the link is written. -/
theorem ReadsText.link {cs : List Word} {a : Word} {s u : State} (h : ReadsText cs a s u) :
    ReadsText cs a s.link (u.setReg .r7 s.pc) := by
  obtain ⟨v, hv, hu⟩ := h
  exact ⟨_, hv.setReg .r7 s.pc, by rw [State.memRead_setReg, hu]⟩

/-! ### How long a text is -/

/-- No words are read past a zero cell that nothing rewrites. -/
theorem ReadsWords.length_le_of_zero {cs : List Word} {a z : Word} {s u : State}
    (h : ReadsWords cs a s u) (hz : s.cell z = 0) (hk : z ≠ s.cfg.kbsrAddr)
    (hd : z ≠ s.cfg.kbdrAddr ∨ (z - a).toNat ≤ (s.cfg.kbsrAddr - a).toNat) :
    cs.length ≤ (z - a).toNat := by
  induction cs generalizing a s with
  | nil => exact Nat.zero_le _
  | cons c cs ih =>
    obtain ⟨h1, h2, h3⟩ := h
    have hza : z ≠ a := by
      rintro rfl
      rw [State.memRead_plain hk] at h1
      exact h2 (h1.symm.trans hz)
    have hstep := sub_toNat_step hza
    by_cases ha : a = s.cfg.kbsrAddr
    · have hd' : z ≠ s.cfg.kbdrAddr := by
        refine hd.resolve_right fun hle => hza (eq_of_sub_toNat ?_)
        rw [← ha, sub_self_toNat] at hle
        omega
      have := ih h3 ((State.memRead_cell a hk hd').trans hz) (by simpa using hk) (.inl (by simpa using hd'))
      rw [List.length_cons]
      omega
    · rw [State.memRead_plain ha] at h3
      dsimp only at h3
      have hks := sub_toNat_step (Ne.symm ha)
      have := ih h3 hz hk (hd.imp_right fun hle => by omega)
      rw [List.length_cons]
      omega

/-- Every 65536 reads take one answer "ready". -/
theorem ReadsWords.length_le_of_polls {cs : List Word} {a : Word} {s u : State} {n : Nat}
    (h : ReadsWords cs a s u) (hn : s.input.pollsLeft = some n) :
    cs.length ≤ (s.cfg.kbsrAddr - a).toNat + 65536 * n := by
  induction cs generalizing a s n with
  | nil => exact Nat.zero_le _
  | cons c cs ih =>
    obtain ⟨h1, h2, h3⟩ := h
    rw [List.length_cons]
    by_cases ha : a = s.cfg.kbsrAddr
    · subst ha
      obtain ⟨b, hans, -, hin, -⟩ := State.memRead_status (h1.symm ▸ h2)
      obtain ⟨hne, hpl⟩ := InputSource.pollsLeft_step hans
      rw [hn] at hne hpl
      have := ih h3 (n := n - 1) (by rw [hin, InputSource.drop_pollsLeft, hpl]; rfl)
      rw [State.memRead_cfg, sub_succ_toNat] at this
      rw [sub_self_toNat]
      have : n ≠ 0 := fun h => hne (by rw [h])
      omega
    · rw [State.memRead_plain ha] at h3
      dsimp only at h3
      have := ih h3 hn
      have := sub_toNat_step (Ne.symm ha)
      omega

/-- Every 65536 reads take a byte; a zero byte ends the text in the lap after it. -/
theorem ReadsWords.length_le_of_bytes {cs : List Word} {a : Word} {s u : State} {n : Nat}
    (h : ReadsWords cs a s u) (hn : s.input.textLeft = some n) :
    cs.length ≤ (s.cfg.kbsrAddr - a).toNat + 65536 * (n + 1) := by
  induction cs generalizing a s n with
  | nil => exact Nat.zero_le _
  | cons c cs ih =>
    obtain ⟨h1, h2, h3⟩ := h
    rw [List.length_cons]
    by_cases ha : a = s.cfg.kbsrAddr
    · subst ha
      obtain ⟨b, -, hb, hin, hcell, hsame⟩ := State.memRead_status (h1.symm ▸ h2)
      rw [sub_self_toNat]
      by_cases hb0 : b = 0
      · subst hb0
        have hk : s.cfg.kbdrAddr ≠ s.cfg.kbsrAddr := fun he => h2 (h1.symm.trans (hsame he))
        have hlt := (s.cfg.kbdrAddr - (s.cfg.kbsrAddr + 1)).isLt
        have := h3.length_le_of_zero (z := s.cfg.kbdrAddr) hcell (by simpa using hk)
          (.inr (by rw [State.memRead_cfg, sub_succ_toNat]; omega))
        omega
      · have hb' : s.input.dropPoll.next = some b := by simpa using hb
        obtain ⟨hne, htl⟩ := InputSource.textLeft_step hb' hb0
        rw [InputSource.dropPoll_textLeft, hn] at hne htl
        have := ih h3 (n := n - 1) (by rw [hin, htl]; rfl)
        rw [State.memRead_cfg, sub_succ_toNat] at this
        have : n ≠ 0 := fun h => hne (by rw [h])
        omega
    · rw [State.memRead_plain ha] at h3
      dsimp only at h3
      have := ih h3 hn
      have := sub_toNat_step (Ne.symm ha)
      omega

/-- Where no string ends, a read leaves it so. -/
theorem State.EndlessText.memRead {s : State} (h : s.EndlessText) (a : Word) :
    (s.memRead a).2.EndlessText ∧ (a = s.cfg.kbsrAddr → (s.memRead a).2.cell s.cfg.kbdrAddr ≠ 0) ∧
      ((s.memRead a).1 = 0 → a = s.cfg.kbdrAddr ∧ a ≠ s.cfg.kbsrAddr ∧ s.cell a = 0) := by
  obtain ⟨hc, hp, ht⟩ := h
  by_cases ha : a = s.cfg.kbsrAddr
  · subst ha
    obtain ⟨b, hb, hb0⟩ := InputSource.next_of_textLeft_none ht
    have hans := InputSource.answer_of_pollsLeft_none hp
    have hpoll : s.input.poll = (some b, s.input.dropPoll.drop) := by
      simp [InputSource.poll, InputSource.ready, hans, hb]
    have hz : zext8 b ≠ 0 := by
      intro h0
      apply hb0
      have := congrArg BitVec.toNat h0
      apply BitVec.eq_of_toNat_eq
      have hlt := b.isLt
      have h1 : b.toNat % 65536 = 0 := by simpa [zext8] using this
      show b.toNat = 0
      omega
    have hm : s.memRead s.cfg.kbsrAddr = (s.pollKeyboard.cell s.cfg.kbsrAddr, s.pollKeyboard) := by
      simp [State.memRead]
    have hk : s.pollKeyboard =
        ((s.setInput s.input.dropPoll.drop).setCell s.cfg.kbsrAddr 0x8000).setCell s.cfg.kbdrAddr
          (zext8 b) := by
      unfold State.pollKeyboard
      rw [hpoll]
    refine ⟨⟨fun z h1 h2 => ?_, ?_, ?_⟩, fun _ => ?_, fun h0 => ?_⟩
    · rw [State.memRead_cfg] at h1 h2
      rw [State.memRead_cell _ h1 h2]
      exact hc z h1 h2
    · rw [hm, hk]
      simp [(InputSource.pollsLeft_step hans).2, hp]
    · rw [hm, hk]
      have hb' : s.input.dropPoll.next = some b := by simpa using hb
      simp [(InputSource.textLeft_step hb' hb0).2, ht]
    · rw [hm, hk]
      simpa using hz
    · rw [hm, hk] at h0
      simp only [State.cell_setCell] at h0
      split at h0
      · exact absurd h0 hz
      · simp at h0
  · rw [State.memRead_plain ha]
    refine ⟨⟨hc, hp, ht⟩, fun h => absurd h ha, fun h0 => ⟨?_, ha, h0⟩⟩
    by_contra hd
    exact hc a ha hd h0

/-- Where no string ends, a text can end only in KBDR, before the first poll. -/
theorem ReadsText.zero_of_endless {cs : List Word} {a : Word} {s u : State} (h : ReadsText cs a s u)
    (he : s.EndlessText) : s.cell s.cfg.kbdrAddr = 0 ∧ s.cfg.kbdrAddr ≠ s.cfg.kbsrAddr ∧
      (s.cfg.kbdrAddr - a).toNat ≤ (s.cfg.kbsrAddr - a).toNat := by
  induction cs generalizing a s with
  | nil =>
    rw [readsText_nil] at h
    obtain ⟨rfl, hk, hz⟩ := (he.memRead a).2.2 (congrArg Prod.fst h)
    exact ⟨hz, hk, by rw [sub_self_toNat]; exact Nat.zero_le _⟩
  | cons c cs ih =>
    rw [readsText_cons] at h
    obtain ⟨h1, h2, h3⟩ := h
    obtain ⟨hz, hk, hle⟩ := ih h3 (he.memRead a).1
    rw [State.memRead_cfg] at hz hk hle
    by_cases ha : a = s.cfg.kbsrAddr
    · exact absurd hz ((he.memRead a).2.1 ha)
    · rw [State.memRead_plain ha] at hz h1
      dsimp only at hz h1
      have hda : s.cfg.kbdrAddr ≠ a := by
        intro hda
        apply h2
        rw [← h1, ← hda]
        exact hz
      have := sub_toNat_step hda
      have := sub_toNat_step (Ne.symm ha)
      exact ⟨hz, hk, by omega⟩

/-- Every text is shorter than the reads the routine is given (log 8). -/
theorem ReadsText.length_lt_fuel {cs : List Word} {a : Word} {s u : State} (h : ReadsText cs a s u) :
    cs.length < s.stringFuel := by
  have hlt : ∀ z : Word, (z - a).toNat < 65536 := fun z => (z - a).isLt
  have hk := hlt s.cfg.kbsrAddr
  obtain ⟨v, hv, -⟩ := id h
  unfold State.stringFuel
  cases hp : s.input.pollsLeft with
  | some n =>
    have := hv.length_le_of_polls hp
    rw [Option.getD_some]
    omega
  | none =>
    cases ht : s.input.textLeft with
    | some n =>
      have := hv.length_le_of_bytes ht
      rw [Option.getD_some, Option.getD_none]
      omega
    | none =>
      have hz : ∃ z, s.cell z = 0 ∧ z ≠ s.cfg.kbsrAddr ∧
          (z ≠ s.cfg.kbdrAddr ∨ (z - a).toNat ≤ (s.cfg.kbsrAddr - a).toNat) := by
        by_cases hc : ∀ z, z ≠ s.cfg.kbsrAddr → z ≠ s.cfg.kbdrAddr → s.cell z ≠ 0
        · obtain ⟨h1, h2, h3⟩ := h.zero_of_endless ⟨hc, hp, ht⟩
          exact ⟨_, h1, h2, .inr h3⟩
        · push Not at hc
          obtain ⟨z, h1, h2, h3⟩ := hc
          exact ⟨z, h3, h1, .inl h2⟩
      obtain ⟨z, h1, h2, h3⟩ := hz
      have := hv.length_le_of_zero h1 h2 h3
      have := hlt z
      rw [Option.getD_none]
      omega

/-- Where some string ends, the reads the routine is given reach the end of this one. -/
theorem text_of_not_endless {s : State} (h : ¬ s.EndlessText) (a : Word) :
    ∃ cs u, ReadsText cs a s u := by
  have hlt : ∀ z : Word, (z - a).toNat < 65536 := fun z => (z - a).isLt
  have hk := hlt s.cfg.kbsrAddr
  obtain ⟨cs, u, -, ht⟩ | ⟨cs, u, hn, hw⟩ := text_or_words s.stringFuel a s
  · exact ⟨cs, u, ht⟩
  · unfold State.stringFuel at hn
    exfalso
    cases hp : s.input.pollsLeft with
    | some n =>
      have := hw.length_le_of_polls hp
      rw [hp, Option.getD_some] at hn
      omega
    | none =>
      cases ht : s.input.textLeft with
      | some n =>
        have := hw.length_le_of_bytes ht
        rw [ht, Option.getD_some] at hn
        omega
      | none =>
        apply h
        refine ⟨fun z h1 h2 h3 => ?_, hp, ht⟩
        have := hw.length_le_of_zero h3 h1 (.inl h2)
        have := hlt z
        omega

/-! ### The loop -/

/-- On words the loop writes their bytes, if the sink accepts them, and goes on after them. -/
theorem stringLoop_of_words {f : Word → List Byte} {cs : List Word} {n : Nat} {a : Word} {s u : State}
    (hs : ReadsWords cs a s u) (ha : s.output.accepts (cs.flatMap f).length = true) :
    stringLoop f (n + cs.length) a s =
      stringLoop f n (a + BitVec.ofNat 16 cs.length)
        (u.setOutput { written := s.output.written ++ cs.flatMap f,
                       room := s.output.room.map (· - (cs.flatMap f).length) }) := by
  induction cs generalizing a s u with
  | nil =>
    change u = s at hs
    subst hs
    obtain ⟨_, _, _, _, _, _, ⟨w, room⟩, _⟩ := u
    cases room <;> simp [State.setOutput]
  | cons c cs ih =>
    obtain ⟨hr, hc, hs⟩ := hs
    have hsplit : s.output.accepts (f c).length = true ∧
        ∀ w, ({ written := w, room := s.output.room.map (· - (f c).length) } : OutputSink).accepts
          (cs.flatMap f).length = true := by
      revert ha
      cases hroom : s.output.room with
      | none => simp [OutputSink.accepts, hroom]
      | some k =>
        simp [OutputSink.accepts, hroom, List.flatMap_cons]
        omega
    rw [List.length_cons, ← Nat.add_assoc, stringLoop, if_neg (hr.symm ▸ hc), hr]
    unfold State.writeThen
    rw [State.memRead_output, OutputSink.writeAll_accepts hsplit.1]
    dsimp only
    rw [ih (hs.setOutput _) (by rw [State.setOutput_output]; exact hsplit.2 _), add_ofNat_succ,
      State.setOutput_output]
    cases s.output.room with
    | none => simp [State.setOutput, List.flatMap_cons]
    | some k => simp [State.setOutput, List.flatMap_cons, Nat.sub_sub]

/-- On a text the loop writes the bytes of each cell in order and changes what reading it changes. -/
theorem stringLoop_of_text {f : Word → List Byte} {cs : List Word} {n : Nat} {a : Word} {s u : State}
    (hn : cs.length < n) (hs : ReadsText cs a s u)
    (ha : s.output.accepts (cs.flatMap f).length = true) :
    stringLoop f n a s =
      .next (u.setOutput { written := s.output.written ++ cs.flatMap f,
                           room := s.output.room.map (· - (cs.flatMap f).length) }) := by
  obtain ⟨m, rfl⟩ : ∃ m, n = (m + 1) + cs.length := ⟨n - cs.length - 1, by omega⟩
  obtain ⟨v, hv, hu⟩ := hs
  rw [stringLoop_of_words hv ha, stringLoop, State.memRead_setOutput, hu, if_pos rfl]

/-- To a sink with less room than the words ask for, the loop writes what fits and ends in the I/O
fault. -/
theorem stringLoop_short {f : Word → List Byte} {cs : List Word} {n r : Nat} {a : Word} {s u : State}
    (hn : cs.length ≤ n) (hs : ReadsWords cs a s u) (hr : s.output.room = some r)
    (hlen : r < (cs.flatMap f).length) :
    ∃ t, stringLoop f n a s = .next t ∧ t.run = .faulted .ioFault ∧
      t.output.written = s.output.written ++ (cs.flatMap f).take r := by
  induction cs generalizing n a s u r with
  | nil => exact absurd hlen (Nat.not_lt_zero r)
  | cons c cs ih =>
    rw [List.length_cons] at hn
    obtain ⟨m, rfl⟩ : ∃ m, n = m + 1 := ⟨n - 1, by omega⟩
    obtain ⟨hread, hc, hs⟩ := hs
    rw [stringLoop, if_neg (hread.symm ▸ hc), hread]
    unfold State.writeThen
    rw [State.memRead_output]
    by_cases hfit : (f c).length ≤ r
    · rw [OutputSink.writeAll_accepts (by simp [OutputSink.accepts, hr, hfit])]
      dsimp only
      rw [List.flatMap_cons, List.length_append] at hlen
      obtain ⟨t, ht, hrun, hout⟩ := ih (n := m) (r := r - (f c).length) (by omega) (hs.setOutput
        { written := s.output.written ++ f c, room := s.output.room.map (· - (f c).length) })
        (by simp [hr]) (by omega)
      refine ⟨t, ht, hrun, ?_⟩
      rw [hout]
      simp [List.flatMap_cons, List.take_append, List.take_of_length_le hfit]
    · rw [OutputSink.writeAll_short hr (Nat.lt_of_not_le hfit)]
      have h0 : r - (f c).length = 0 := by omega
      exact ⟨_, rfl, rfl, by simp [List.flatMap_cons, List.take_append, h0]⟩

/-- With a text, or with a bounded sink, the loop ends within the reads it is given. -/
theorem stringLoop_ends {f : Word → List Byte} (hf : ∀ w, f w ≠ []) {a : Word} {s : State}
    (h : ¬ s.EndlessText ∨ s.output.room ≠ none) : ∃ t, stringLoop f s.stringFuel a s = .next t := by
  have hlen : ∀ cs : List Word, cs.length ≤ (cs.flatMap f).length := by
    intro cs
    induction cs with
    | nil => exact Nat.zero_le _
    | cons c cs ih =>
      have := List.length_pos_of_ne_nil (hf c)
      rw [List.flatMap_cons, List.length_append, List.length_cons]
      omega
  have htext : ∀ cs u, ReadsText cs a s u → ∃ t, stringLoop f s.stringFuel a s = .next t := by
    intro cs u ht
    by_cases ha : s.output.accepts (cs.flatMap f).length = true
    · exact ⟨_, stringLoop_of_text ht.length_lt_fuel ht ha⟩
    · cases hr : s.output.room with
      | none => simp [OutputSink.accepts, hr] at ha
      | some r =>
        obtain ⟨v, hv, -⟩ := id ht
        obtain ⟨t, h, -⟩ := stringLoop_short (Nat.le_of_lt ht.length_lt_fuel) hv hr
          (by simpa [OutputSink.accepts, hr] using ha)
        exact ⟨t, h⟩
  by_cases he : s.EndlessText
  · obtain ⟨cs, u, -, ht⟩ | ⟨cs, u, hn, hw⟩ := text_or_words s.stringFuel a s
    · exact htext cs u ht
    · obtain ⟨r, hr⟩ := Option.ne_none_iff_exists'.mp (h.resolve_left (absurd he))
      have := hlen cs
      have hfuel : r < s.stringFuel := by
        unfold State.stringFuel
        rw [hr, Option.getD_some]
        omega
      obtain ⟨t, h, -⟩ := stringLoop_short (f := f) (Nat.le_of_eq hn) hw hr (by omega)
      exact ⟨t, h⟩
  · obtain ⟨cs, u, ht⟩ := text_of_not_endless he a
    exact htext cs u ht

/-! ### Strings that poll nothing -/

/-- A string is a text whose reading changes nothing. -/
theorem State.HasString.text {s : State} {a : Word} {cs : List Word} (h : s.HasString a cs) :
    ReadsText cs a s s := by
  induction cs generalizing a with
  | nil =>
    rw [readsText_nil, State.memRead_plain (by simpa using h.2.2 0 (Nat.zero_le _))]
    exact Prod.ext (by simpa using h.2.1) rfl
  | cons c cs ih =>
    have hk : a ≠ s.cfg.kbsrAddr := by simpa using h.2.2 0 (Nat.zero_le _)
    have hc : s.cell a = c ∧ c ≠ 0 := by simpa using h.1 0 (Nat.zero_lt_succ _)
    rw [readsText_cons, State.memRead_plain hk]
    obtain ⟨h1, h0, h2⟩ := h
    refine ⟨hc.1, hc.2, ih ⟨fun k hk' => ?_, ?_, fun k hk' => ?_⟩⟩
    · rw [← add_ofNat_succ]
      exact h1 (k + 1) (Nat.succ_lt_succ hk')
    · rw [← add_ofNat_succ]
      exact h0
    · rw [← add_ofNat_succ]
      exact h2 (k + 1) (Nat.succ_le_succ hk')

end Sys2Proof.Machine
end

