-- ==== Sys2Proof/Laws/Trap.lean ====
section
/-! SUPPORT. What the console routines of TRAP answer when they complete (spec 44_trap R152, R153, R155):
the link, a quiet step, and at most a byte in R0. -/

namespace Sys2Proof.Machine

/-- GETC took a byte, or ended in the I/O fault. -/
theorem execGetc_next {s t : State} (h : execGetc s = .next t) :
    (∃ b, s.input.next = some b ∧ t = (s.link.setInput s.input.drop).setReg .r0 (zext8 b)) ∨
      (s.input.next = none ∧ s.input.ending = .closed ∧ t = s.link.raiseFault .ioFault) := by
  unfold execGetc at h
  rw [State.link_input] at h
  obtain ⟨b, hb, hr⟩ | ⟨hn, he, hr⟩ | ⟨_, _, hr⟩ := s.input.read_eq
  · rw [hr] at h
    exact .inl ⟨b, hb, (Host.Outcome.next.inj h).symm⟩
  · rw [hr] at h
    exact .inr ⟨hn, he, (Host.Outcome.next.inj h).symm⟩
  · rw [hr] at h
    cases h

/-- OUT is quiet after the link, and it touches no memory. -/
theorem execOut_next {s t : State} (h : execOut s = .next t) :
    QuietStep s.link t ∧ t.mem = s.mem ∧ (t.run = s.run ∨ t.run = .faulted .ioFault) := by
  unfold execOut at h
  obtain ⟨o, ho, hk⟩ | ⟨o, ho, rfl⟩ := State.writeThen_next h
  · cases hk
    exact ⟨QuietStep.writeAll _ ho, rfl, .inl rfl⟩
  · exact ⟨(QuietStep.writeAll _ ho).trans (QuietStep.raiseFault _ _), rfl, .inr rfl⟩

/-- IN is quiet after the link and touches no memory; it ends in the I/O fault, or puts a byte in
R0. -/
theorem execInChar_next {s t : State} (h : execInChar s = .next t) :
    ∃ u, QuietStep s.link u ∧ u.mem = s.mem ∧
      (t = u ∧ u.run = .faulted .ioFault ∨ ∃ b, t = u.setReg .r0 (zext8 b) ∧ u.run = s.run) := by
  unfold execInChar at h
  obtain ⟨o, ho, hk⟩ | ⟨o, ho, rfl⟩ := State.writeThen_next h
  · have hq := QuietStep.writeAll _ ho
    obtain ⟨b, -, hr⟩ | ⟨-, -, hr⟩ | ⟨-, -, hr⟩ := (s.link.setOutput o).input.read_eq
    · rw [hr] at hk
      have hi : QuietStep (s.link.setOutput o)
          ((s.link.setOutput o).setInput (s.link.setOutput o).input.drop) :=
        QuietStep.setInput _ (.drop _)
      obtain ⟨o', ho', hk'⟩ | ⟨o', ho', rfl⟩ := State.writeThen_next hk
      · cases hk'
        exact ⟨_, hq.trans (hi.trans (QuietStep.writeAll _ ho')), rfl, .inr ⟨b, rfl, rfl⟩⟩
      · exact ⟨_, hq.trans (hi.trans ((QuietStep.writeAll _ ho').trans (QuietStep.raiseFault _ _))),
          rfl, .inl ⟨rfl, rfl⟩⟩
    · rw [hr] at hk
      cases hk
      exact ⟨_, hq.trans (QuietStep.raiseFault _ _), rfl, .inl ⟨rfl, rfl⟩⟩
    · rw [hr] at hk
      cases hk
  · exact ⟨_, (QuietStep.writeAll _ ho).trans (QuietStep.raiseFault _ _), rfl, .inl ⟨rfl, rfl⟩⟩

end Sys2Proof.Machine
end

