-- ==== Sys2Proof/Tests/Slice0.lean ====
section
/-! SUPPORT. Tests: the smoke test of well-formedness, decoding of words of spec 95_test_vectors, single
steps whose results are that file's (its part and word in each comment), and for every statement with
hypotheses a witness that meets them. -/

namespace Sys2Proof.Tests

open Sys2Proof.Machine

/-! ### Well-formedness -/

theorem test_wf_refuses_recognised_vectors :
    (Instr.trapUnrecognised 0x20).wf = false ∧ (Instr.trapUnrecognised 0x21).wf = false ∧
      (Instr.trapUnrecognised 0x22).wf = false ∧ (Instr.trapUnrecognised 0x23).wf = false ∧
      (Instr.trapUnrecognised 0x24).wf = false ∧ (Instr.trapUnrecognised 0x25).wf = false := by
  decide

theorem test_wf_admits_other_vectors :
    (Instr.trapUnrecognised 0x00).wf = true ∧ (Instr.trapUnrecognised 0x1F).wf = true ∧
      (Instr.trapUnrecognised 0x26).wf = true ∧ (Instr.trapUnrecognised 0xFF).wf = true := by
  decide

/-! ### Decoding: the words of part 2 -/

theorem test_decode_add_register : decode 0x1042 = .addReg .r0 .r1 .r2 := by decide
theorem test_decode_add_unused_bits : decode 0x105A = .addReg .r0 .r1 .r2 := by decide
theorem test_decode_add_immediate : decode 0x103B = .addImm .r0 .r0 0b11011 := by decide
theorem test_decode_and_register : decode 0x5042 = .andReg .r0 .r1 .r2 := by decide
theorem test_decode_and_immediate : decode 0x56EF = .andImm .r3 .r3 15 := by decide
theorem test_decode_not : decode 0x94BF = .notReg .r2 .r2 := by decide
theorem test_decode_not_unused_bits : decode 0x9480 = .notReg .r2 .r2 := by decide
theorem test_decode_br_n : decode 0x0805 = .br true false false 5 := by decide
theorem test_decode_br_z : decode 0x0400 = .br false true false 0 := by decide
theorem test_decode_br_p : decode 0x03FD = .br false false true 0x1FD := by decide
theorem test_decode_nop : decode 0x0000 = Instr.nop := by decide
theorem test_decode_ret : decode 0xC1C0 = Instr.ret := by decide
theorem test_decode_jmp_unused_bits : decode 0xCEBF = .jmp .r2 := by decide
theorem test_decode_jsr : decode 0x4804 = .jsr 4 := by decide
theorem test_decode_jsr_negative : decode 0x4C00 = .jsr 0x400 := by decide
theorem test_decode_jsrr : decode 0x4080 = .jsrr .r2 := by decide
theorem test_decode_ld : decode 0x2403 = .ld .r2 3 := by decide
theorem test_decode_ldi : decode 0xA605 = .ldi .r3 5 := by decide
theorem test_decode_ldr : decode 0x69FF = .ldr .r4 .r7 0x3F := by decide
theorem test_decode_lea : decode 0xEA00 = .lea .r5 0 := by decide
theorem test_decode_st : decode 0x3700 = .st .r3 0x100 := by decide
theorem test_decode_sti : decode 0xB406 = .sti .r2 6 := by decide
theorem test_decode_str : decode 0x707E = .str .r0 .r1 0x3E := by decide
theorem test_decode_rti : decode 0x8000 = .rti ∧ decode 0x8ABC = .rti := by decide
theorem test_decode_res : decode 0xD000 = .res ∧ decode 0xDFFF = .res := by decide
theorem test_decode_getc : decode 0xF020 = .getc ∧ decode 0xFF20 = .getc := by decide
theorem test_decode_out : decode 0xF021 = .out := by decide
theorem test_decode_puts : decode 0xF022 = .puts := by decide
theorem test_decode_in : decode 0xF023 = .inChar := by decide
theorem test_decode_putsp : decode 0xF024 = .putsp := by decide
theorem test_decode_halt : decode 0xF025 = .halt := by decide
theorem test_decode_bad_vectors :
    decode 0xF000 = .trapUnrecognised 0x00 ∧ decode 0xF01F = .trapUnrecognised 0x1F ∧
      decode 0xF026 = .trapUnrecognised 0x26 ∧ decode 0xF0FF = .trapUnrecognised 0xFF := by
  decide

/-- The spec's own words for these instructions (30_encoding R92 and part 2). -/
theorem test_encode_words :
    encode .nop = 0x0000 ∧ encode .ret = 0xC1C0 ∧ encode (.notReg .r2 .r2) = 0x94BF ∧
      encode (.jsrr .r7) = 0x41C0 ∧ encode (.ldr .r4 .r7 0x3F) = 0x69FF ∧ encode .halt = 0xF025 := by
  decide

theorem test_decode_table_word :
    decodeTableWord 16 0xF099 = some (.trapUnrecognised 0x99) ∧ decodeTableWord 17 0 = none := by
  decide

/-! ### Single steps -/

/-- A running machine with these registers, this `pc`, flag and memory, at the console what reset has. -/
def at_ (pc : Word) (regs : Regs) (c : Cond) (mem : Memory) : State :=
  { State.reset with pc := pc, regs := regs, cond := c, mem := mem }

/-- The same with input. -/
def typed (s : State) (bytes : List Byte) : State := { s with input := { s.input with bytes := bytes } }

/-- The same with a sink that has room for `n` bytes. -/
def roomFor (s : State) (n : Nat) : State := { s with output := { s.output with room := some n } }

/-- The step of the word `w` at `s` answers a next state that passes the check. -/
def after (s : State) (w : Nat) (check : State → Bool) : Bool :=
  match step (s.withFetchWord 16 w) with
  | .next t => check t
  | .fault _ => false
  | .refused _ => false

/-- Registers 0 to 3; the others are zero. -/
def regs4 (a b c d : Word) : Regs := ⟨a, b, c, d, 0, 0, 0, 0⟩

/-- 2.3: 1042 with R1 = 7FFF, R2 = 0001: signed overflow, no fault. -/
theorem test_add_overflow :
    after (at_ 0x3000 (regs4 0 0x7FFF 1 0) .z []) 0x1042
      (fun t => t.reg .r0 == 0x8000 && t.cond == .n && t.pc == 0x3001) = true := by decide

/-- 2.3: 1241 with R1 = 8000: the carry is lost, source and destination are one register. -/
theorem test_add_carry_lost :
    after (at_ 0x3000 (regs4 0 0x8000 0 0) .p []) 0x1241
      (fun t => t.reg .r1 == 0 && t.cond == .z) = true := by decide

/-- 2.3: 103B with R0 = 0003. -/
theorem test_add_negative_immediate :
    after (at_ 0x3000 (regs4 3 0 0 0) .z []) 0x103B
      (fun t => t.reg .r0 == 0xFFFE && t.cond == .n) = true := by decide

/-- 2.12: 1021 at FFFF: `pc` wraps. -/
theorem test_add_at_top_of_memory :
    after (at_ 0xFFFF (regs4 0 0 0 0) .z []) 0x1021
      (fun t => t.reg .r0 == 1 && t.cond == .p && t.pc == 0) = true := by decide

/-- 2.4: 5042 with R1 = FF0F, R2 = 0FF0. -/
theorem test_and_register :
    after (at_ 0x3000 (regs4 0 0xFF0F 0x0FF0 0) .z []) 0x5042
      (fun t => t.reg .r0 == 0x0F00 && t.cond == .p) = true := by decide

/-- 2.4: 5030 with R0 = BEEF: the immediate is sign-extended. -/
theorem test_and_immediate :
    after (at_ 0x3000 (regs4 0xBEEF 0 0 0) .z []) 0x5030
      (fun t => t.reg .r0 == 0xBEE0 && t.cond == .n) = true := by decide

/-- 2.5: 9480 with R2 = 00FF. -/
theorem test_not :
    after (at_ 0x3000 (regs4 0 0 0x00FF 0) .z []) 0x9480
      (fun t => t.reg .r2 == 0xFF00 && t.cond == .n) = true := by decide

/-- 2.6: 07FE at 3001, taken on ZERO, not on NEGATIVE. -/
theorem test_br_backward :
    after (at_ 0x3001 Regs.zero .z []) 0x07FE (fun t => t.pc == 0x3000 && t.cond == .z) = true ∧
      after (at_ 0x3001 Regs.zero .n []) 0x07FE (fun t => t.pc == 0x3002) = true := by decide

/-- 2.6: 0EFF at FFFE and 0F00 at 0010: both wrap. -/
theorem test_br_wraps :
    after (at_ 0xFFFE Regs.zero .p []) 0x0EFF (fun t => t.pc == 0x00FE) = true ∧
      after (at_ 0x0010 Regs.zero .n []) 0x0F00 (fun t => t.pc == 0xFF11) = true := by decide

/-- 2.7: CEBF with R2 = FFFF. -/
theorem test_jmp :
    after (at_ 0x3000 (regs4 0 0 0xFFFF 0) .z []) 0xCEBF (fun t => t.pc == 0xFFFF) = true := by decide

/-- 2.7: 4C00 at 3000, and 4BFF at FFFF. -/
theorem test_jsr :
    after (at_ 0x3000 Regs.zero .z []) 0x4C00
        (fun t => t.pc == 0x2C01 && t.reg .r7 == 0x3001) = true ∧
      after (at_ 0xFFFF Regs.zero .z []) 0x4BFF
        (fun t => t.pc == 0x03FF && t.reg .r7 == 0) = true := by decide

/-- 2.7: 4080 with R2 = 4000. -/
theorem test_jsrr :
    after (at_ 0x3000 (regs4 0 0 0x4000 0) .z []) 0x4080
      (fun t => t.pc == 0x4000 && t.reg .r7 == 0x3001) = true := by decide

/-- 2.7: 41C0 with R7 = 5000 falls through. -/
theorem test_jsrr_r7 :
    after (at_ 0x3000 ⟨0, 0, 0, 0, 0, 0, 0, 0x5000⟩ .z []) 0x41C0
      (fun t => t.pc == 0x3001 && t.reg .r7 == 0x3001) = true := by decide

/-- 2.8: 25FF at 3005 loads its own word. -/
theorem test_ld_own_word :
    after (at_ 0x3005 Regs.zero .z []) 0x25FF
      (fun t => t.reg .r2 == 0x25FF && t.cond == .p) = true := by decide

/-- 2.8: 2002 at FDFD polls, input `Zq`. -/
theorem test_ld_polls :
    after (typed (at_ 0xFDFD Regs.zero .z []) [0x5A, 0x71]) 0x2002
      (fun t => t.reg .r0 == 0x8000 && t.cond == .n && t.cell 0xFE00 == 0x8000 &&
        t.cell 0xFE02 == 0x005A && t.input.bytes == [0x71]) = true := by decide

/-- 2.8: A605 at 3002. -/
theorem test_ldi :
    after (at_ 0x3002 Regs.zero .z [(0x3008, 0x4000), (0x4000, 0xFF00)]) 0xA605
      (fun t => t.reg .r3 == 0xFF00 && t.cond == .n) = true := by decide

/-- 2.8: A001 with a pointer to KBSR and no input: KBSR is cleared, KBDR stays. -/
theorem test_ldi_polls_nothing :
    after (at_ 0x3000 Regs.zero .p [(0x3002, 0xFE00), (0xFE00, 0x1234), (0xFE02, 0x0055)]) 0xA001
      (fun t => t.reg .r0 == 0 && t.cond == .z && t.cell 0xFE00 == 0 &&
        t.cell 0xFE02 == 0x0055) = true := by decide

/-- 2.8: 6041 with R1 = FFFF: the address wraps. -/
theorem test_ldr_wraps :
    after (at_ 0x3000 (regs4 0 0xFFFF 0 0) .z [(0, 0x7FFF)]) 0x6041
      (fun t => t.reg .r0 == 0x7FFF && t.cond == .p) = true := by decide

/-- 2.8: 6060 with R1 = 0010: offset -32. -/
theorem test_ldr_negative :
    after (at_ 0x3000 (regs4 0 0x0010 0 0) .z [(0xFFF0, 0xABCD)]) 0x6060
      (fun t => t.reg .r0 == 0xABCD && t.cond == .n) = true := by decide

/-- 2.8: E100 at 00FF. -/
theorem test_lea_zero :
    after (at_ 0x00FF Regs.zero .n []) 0xE100 (fun t => t.reg .r0 == 0 && t.cond == .z) = true := by
  decide

/-- 2.8: E002 at FDFD: no poll. -/
theorem test_lea_does_not_poll :
    after (typed (at_ 0xFDFD Regs.zero .z []) [0x5A]) 0xE002
      (fun t => t.reg .r0 == 0xFE00 && t.cond == .n && t.input.bytes == [0x5A]) = true := by decide

/-- 2.9: 3700 at 0000 with R3 = AAAA. -/
theorem test_st_wraps :
    after (at_ 0x0000 (regs4 0 0 0 0xAAAA) .z []) 0x3700
      (fun t => t.cell 0xFF01 == 0xAAAA && t.cond == .z) = true := by decide

/-- 2.9: 3001 at FDFE stores to KBSR: no poll. -/
theorem test_st_status :
    after (typed (at_ 0xFDFE (regs4 0x1234 0 0 0) .z []) [0x5A]) 0x3001
      (fun t => t.cell 0xFE00 == 0x1234 && t.input.bytes == [0x5A]) = true := by decide

/-- 2.9: B406 at 3001. -/
theorem test_sti :
    after (at_ 0x3001 (regs4 0 0 0xFF00 0) .z [(0x3008, 0x4000)]) 0xB406
      (fun t => t.cell 0x4000 == 0xFF00 && t.cell 0x3008 == 0x4000) = true := by decide

/-- 2.9: B400 with a pointer to itself. -/
theorem test_sti_own_pointer :
    after (at_ 0x3000 (regs4 0 0 0x1111 0) .z [(0x3001, 0x3001)]) 0xB400
      (fun t => t.cell 0x3001 == 0x1111) = true := by decide

/-- 2.9: 707E with R0 = 1234, R1 = 4000. -/
theorem test_str :
    after (at_ 0x3000 (regs4 0x1234 0x4000 0 0) .z []) 0x707E
      (fun t => t.cell 0x3FFE == 0x1234 && t.reg .r1 == 0x4000) = true := by decide

/-- 2.9: 7041 with R1 = FFFF. -/
theorem test_str_wraps :
    after (at_ 0x3000 (regs4 0x5555 0xFFFF 0 0) .z []) 0x7041 (fun t => t.cell 0 == 0x5555) = true := by
  decide

/-- 2.10: F020, input `ab`. -/
theorem test_getc :
    after (typed (at_ 0x3000 (regs4 0xFFFF 0 0 0) .n []) [0x61, 0x62]) 0xF020
      (fun t => t.reg .r0 == 0x0061 && t.reg .r7 == 0x3001 && t.cond == .n &&
        t.output.written == [] && t.input.bytes == [0x62]) = true := by decide

/-- 2.10: F020, input exhausted and closed. -/
theorem test_getc_closed :
    after (at_ 0x3000 (regs4 0xFFFF 0 0 0) .n []) 0xF020
      (fun t => t.run == .faulted .ioFault && t.reg .r7 == 0x3001 && t.pc == 0x3001 &&
        t.reg .r0 == 0xFFFF) = true := by decide

/-- 2.10: F021 with R0 = 1241. -/
theorem test_out :
    after (at_ 0x3000 (regs4 0x1241 0 0 0) .z []) 0xF021
      (fun t => t.output.written == [0x41] && t.reg .r0 == 0x1241 && t.reg .r7 == 0x3001) = true := by
  decide

/-- 2.10: F022, cells 1241, 0100, 0042, 0000; and with R0 = FFFF, where the pointer wraps. -/
theorem test_puts :
    after (at_ 0x3000 (regs4 0x4000 0 0 0) .z [(0x4000, 0x1241), (0x4001, 0x0100), (0x4002, 0x0042)])
        0xF022 (fun t => t.output.written == [0x41, 0x00, 0x42] && t.reg .r0 == 0x4000) = true ∧
      after (at_ 0x3000 (regs4 0xFFFF 0 0 0) .z [(0x0000, 0x0042), (0xFFFF, 0x0041)])
        0xF022 (fun t => t.output.written == [0x41, 0x42]) = true := by decide

/-- 2.10: F023, input `x`: twenty bytes, the prompt and the echo. -/
theorem test_in :
    after (typed (at_ 0x3000 Regs.zero .z []) [0x78]) 0xF023
      (fun t => t.output.written == Config.defaultPrompt ++ [0x78] && t.output.written.length == 20 &&
        t.reg .r0 == 0x0078 && t.reg .r7 == 0x3001 && t.cond == .z) = true := by decide

/-- 2.10: F024, cells 6968, 0021, 0000; and cells 4100, 0042, 0000, where a zero low byte is written. -/
theorem test_putsp :
    after (at_ 0x3000 (regs4 0x4000 0 0 0) .z [(0x4000, 0x6968), (0x4001, 0x0021)])
        0xF024 (fun t => t.output.written == [0x68, 0x69, 0x21]) = true ∧
      after (at_ 0x3000 (regs4 0x4000 0 0 0) .z [(0x4000, 0x4100), (0x4001, 0x0042)])
        0xF024 (fun t => t.output.written == [0x00, 0x41, 0x42]) = true := by decide

/-- 2.10: F025. -/
theorem test_halt :
    after (at_ 0x3000 Regs.zero .n []) 0xF025
      (fun t => t.run == .halted && t.reg .r7 == 0x3001 && t.pc == 0x3001 && t.cond == .n &&
        t.output.written == []) = true := by decide

/-- 2.10: F099. -/
theorem test_bad_vector :
    after State.reset 0xF099
      (fun t => t.run == .faulted .badTrapVector && t.reg .r7 == 0x3001 && t.pc == 0x3001) = true := by
  decide

/-- 2.11: 8ABC. -/
theorem test_rti :
    after State.reset 0x8ABC
      (fun t => t.run == .faulted .rtiOpcode && t.pc == 0x3001 && t.regs == Regs.zero) = true := by
  decide

/-- 2.11: DFFF. -/
theorem test_res :
    after State.reset 0xDFFF
      (fun t => t.run == .faulted .resOpcode && t.pc == 0x3001 && t.regs == Regs.zero) = true := by
  decide

/-- Part 1, T11: 17 words at FFF0 are refused, 16 are not. -/
theorem test_image_overflow :
    Image.fits { origin := 0xFFF0, words := List.replicate 17 0 } = false ∧
      Image.fits { origin := 0xFFF0, words := List.replicate 16 0 } = true := by decide

/-- P1: the bytes of its image file. -/
theorem test_image_bytes :
    Image.parse [0x30, 0x00, 0x50, 0x20, 0x10, 0x25, 0xF0, 0x25]
      = .ok { origin := 0x3000, words := [0x5020, 0x1025, 0xF025] } := by rfl

/-! ### Witnesses: the hypotheses of each statement are met -/

/-- The machine about to fetch from `KBSR_ADDR`, with a stored word there. -/
def atStatus : State := at_ 0xFE00 Regs.zero .z [(0xFE00, 0xF025)]

/-- Two characters typed. -/
def twoTyped : State := typed State.reset [0x41, 0x42]

/-- R0 points at the string `hi` of part 1, T9. -/
def hiThere : State := at_ 0x3001 (regs4 0x4000 0 0 0) .z [(0x4000, 0x0068), (0x4001, 0x0069)]

/-- The source neither delivers nor fails. -/
def waiting : State := { State.reset with input := { State.reset.input with ending := .waits } }

theorem witness_roundTrip :
    (Instr.trapUnrecognised 0x1F).wf = true ∧ (Instr.trapUnrecognised 0x26).wf = true ∧
      (Instr.br true true true 0x1FF).wf = true := by decide

theorem witness_illegalWord :
    illegalWord 0x8000 ∧ illegalWord 0xDFFF ∧ illegalWord 0xF01F ∧ illegalWord 0xF026 ∧
      State.reset.run = .running := by
  unfold illegalWord
  decide

theorem witness_legalWord : ¬ illegalWord 0xF020 ∧ ¬ illegalWord 0xF025 ∧ ¬ illegalWord 0xEFFF ∧
    (∃ t, exec (decode 0xF020) State.reset = .next t ∧ t.run = .faulted .ioFault) := by
  refine ⟨?_, ?_, ?_, State.reset.link.raiseFault .ioFault, rfl, rfl⟩ <;> unfold illegalWord <;> decide

theorem witness_step : State.reset.run = .running ∧ State.reset.pc ≠ State.reset.cfg.kbsrAddr := by
  decide

theorem witness_fetchStatus :
    atStatus.run = .running ∧ atStatus.pc = atStatus.cfg.kbsrAddr ∧ atStatus.cfg.wf = true ∧
      atStatus.input.ready = false ∧ (typed atStatus [0x6B]).input.ready = true := by decide

theorem witness_terminal :
    State.reset.enterHalted.run = .halted ∧
      (State.reset.raiseFault .ioFault).run = .faulted .ioFault := by decide

theorem witness_runState :
    State.reset.run = .running ∧
      (∃ t, exec .halt State.reset = .next t) ∧ (∃ t, exec .res State.reset = .next t) ∧
      (∃ t, exec .rti State.reset = .next t) ∧
      (∃ t, exec (.trapUnrecognised 0x26) State.reset = .next t) ∧
      (∃ t, exec .getc State.reset = .next t ∧ t.run = .faulted .ioFault) ∧
      (∃ t, exec .nop State.reset = .next t ∧ t.run = .running) :=
  ⟨rfl, ⟨_, rfl⟩, ⟨_, rfl⟩, ⟨_, rfl⟩, ⟨_, rfl⟩, ⟨_, rfl, rfl⟩, ⟨_, rfl, rfl⟩⟩

theorem witness_boot :
    (0xFFF0 : Word).toNat + (List.replicate 16 (0 : Word)).length ≤ 65536 ∧
      65536 < (0xFFF0 : Word).toNat + (List.replicate 17 (0 : Word)).length := by decide

theorem witness_bootInvariant :
    Config.default.wf = true ∧ Memory.wf [] = true ∧
      ∃ s, State.boot Config.default [] { origin := 0xFFFF, words := [0xF025] } InputSource.empty none
        = .ok s :=
  ⟨by decide, by decide, _, rfl⟩

theorem witness_stepKeeps : State.reset.Inv ∧ ∃ t, step State.reset = .next t :=
  ⟨by unfold State.Inv; decide, _, rfl⟩

theorem witness_memReadPlain :
    (0xFDFF : Word) ≠ State.reset.cfg.kbsrAddr ∧ (0xFE01 : Word) ≠ State.reset.cfg.kbsrAddr ∧
      State.reset.cfg.kbdrAddr ≠ State.reset.cfg.kbsrAddr := by decide

theorem witness_statusPoll :
    twoTyped.cfg.wf = true ∧ twoTyped.input.ready = true ∧ State.reset.cfg.wf = true ∧
      State.reset.input.ready = false := by decide

theorem witness_twoPolls :
    twoTyped.cfg.wf = true ∧ twoTyped.input.bytes = 0x41 :: 0x42 :: [] ∧
      twoTyped.input.answer = true ∧ twoTyped.input.dropPoll.answer = true := by decide

theorem witness_pollTruthful :
    twoTyped.input.ready = true ∧ twoTyped.input.next = some 0x41 ∧ twoTyped.input.polls = [] ∧
      ({ twoTyped.input with polls := [false] } : InputSource).polls = false :: [] ∧
      ({ twoTyped.input with polls := [false] } : InputSource).next = some 0x41 := by decide

theorem witness_flagRule :
    (0 : Word) = 0 ∧ (0x8000 : Word).getLsbD 15 = true ∧ (0xFFFF : Word).getLsbD 15 = true ∧
      (0x7FFF : Word) ≠ 0 ∧ (0x7FFF : Word).getLsbD 15 = false ∧ (1 : Word).getLsbD 15 = false := by
  decide

theorem witness_operateWords :
    (0x105A : Word).extractLsb' 12 4 = 0b0001 ∧ (0x105A : Word).getLsbD 5 = false ∧
      (0x103B : Word).extractLsb' 12 4 = 0b0001 ∧ (0x103B : Word).getLsbD 5 = true ∧
      (0x5042 : Word).extractLsb' 12 4 = 0b0101 ∧ (0x5042 : Word).getLsbD 5 = false ∧
      (0x56EF : Word).extractLsb' 12 4 = 0b0101 ∧ (0x56EF : Word).getLsbD 5 = true ∧
      (0x94BF : Word).extractLsb' 12 4 = 0b1001 := by decide

theorem witness_controlWords :
    (0x0805 : Word).extractLsb' 12 4 = 0b0000 ∧ (0xCEBF : Word).extractLsb' 12 4 = 0b1100 ∧
      (0x4804 : Word).extractLsb' 12 4 = 0b0100 ∧ (0x4804 : Word).getLsbD 11 = true ∧
      (0x4080 : Word).extractLsb' 12 4 = 0b0100 ∧ (0x4080 : Word).getLsbD 11 = false := by decide

theorem witness_branch :
    ((true = true ∧ State.reset.cond = .n) ∨ (true = true ∧ State.reset.cond = .z) ∨
        (true = true ∧ State.reset.cond = .p)) ∧
      ¬ ((true = true ∧ State.reset.cond = .n) ∨ (false = true ∧ State.reset.cond = .z) ∨
        (true = true ∧ State.reset.cond = .p)) := by decide

theorem witness_memoryWords :
    (0x2403 : Word).extractLsb' 12 4 = 0b0010 ∧ (0xA605 : Word).extractLsb' 12 4 = 0b1010 ∧
      (0x69FF : Word).extractLsb' 12 4 = 0b0110 ∧ (0xE002 : Word).extractLsb' 12 4 = 0b1110 ∧
      (0x3001 : Word).extractLsb' 12 4 = 0b0011 ∧ (0xB406 : Word).extractLsb' 12 4 = 0b1011 ∧
      (0x707E : Word).extractLsb' 12 4 = 0b0111 := by decide

theorem witness_plainAddresses :
    State.reset.pcRel9 0x1FF ≠ State.reset.cfg.kbsrAddr ∧
      State.reset.cell (State.reset.pcRel9 0x1FF) ≠ State.reset.cfg.kbsrAddr ∧
      State.reset.baseOff .r0 0x20 ≠ State.reset.cfg.kbsrAddr := by decide

/-- R0 and the pointer at 0x3000 name the next instruction. -/
def pointsAhead : State := at_ 0x3000 (regs4 0x3000 0 0 0) .z [(0x3000, 0x3000)]

theorem witness_storeSeen :
    pointsAhead.run = .running ∧ pointsAhead.pc ≠ pointsAhead.cfg.kbsrAddr ∧
      pointsAhead.pcRel9 0 = pointsAhead.pc ∧
      (pointsAhead.memRead (pointsAhead.pcRel9 0)).1 = pointsAhead.pc ∧
      pointsAhead.baseOff .r0 0 = pointsAhead.pc := by decide

theorem witness_trapWords :
    (0xFF20 : Word).extractLsb' 12 4 = 0b1111 ∧ (0xFF20 : Word).extractLsb' 0 8 = 0x20 ∧
      (0xF021 : Word).extractLsb' 0 8 = 0x21 ∧ (0xF022 : Word).extractLsb' 0 8 = 0x22 ∧
      (0xF023 : Word).extractLsb' 0 8 = 0x23 ∧ (0xF024 : Word).extractLsb' 0 8 = 0x24 ∧
      (0xF025 : Word).extractLsb' 0 8 = 0x25 ∧ ((0xF01F : Word).extractLsb' 0 8).toNat < 0x20 ∧
      0x25 < ((0xF026 : Word).extractLsb' 0 8).toNat := by decide

theorem witness_illegalOpcodes :
    (0xDFFF : Word).extractLsb' 12 4 = 0b1101 ∧ (0x8ABC : Word).extractLsb' 12 4 = 0b1000 := by decide

theorem witness_getc : twoTyped.input.next = some 0x41 := by decide

theorem witness_consoleReadWaits :
    waiting.input.bytes = [] ∧ waiting.input.ending = .waits ∧
      waiting.output.accepts waiting.cfg.inPrompt.length = true := by decide

theorem witness_consoleReadFails :
    State.reset.input.bytes = [] ∧ State.reset.input.ending = .closed ∧
      State.reset.output.accepts State.reset.cfg.inPrompt.length = true := by decide

theorem witness_out :
    (roomFor State.reset 1).output.accepts 1 = true ∧ (roomFor State.reset 0).output.room = some 0 := by
  decide

/-- What a string is, for a string short enough to look at each cell. -/
theorem hasString_hi : hiThere.HasString (hiThere.reg .r0) [0x0068, 0x0069] := by
  refine ⟨fun k hk => ?_, by decide, fun k hk => ?_⟩
  · obtain rfl | rfl : k = 0 ∨ k = 1 := by simp only [List.length_cons, List.length_nil] at hk; omega
    · exact ⟨rfl, show (0x0068 : Word) ≠ 0 by decide⟩
    · exact ⟨rfl, show (0x0069 : Word) ≠ 0 by decide⟩
  · obtain rfl | rfl | rfl : k = 0 ∨ k = 1 ∨ k = 2 := by
      simp only [List.length_cons, List.length_nil] at hk; omega
    · decide
    · decide
    · decide

theorem witness_puts :
    hiThere.HasString (hiThere.reg .r0) [0x0068, 0x0069] ∧
      hiThere.output.accepts [(0x0068 : Word), 0x0069].length = true :=
  ⟨hasString_hi, by decide⟩

/-- A sink with room for exactly the bytes of the string. -/
theorem witness_putsp :
    (roomFor hiThere 2).HasString ((roomFor hiThere 2).reg .r0) [0x0068, 0x0069] ∧
      (roomFor hiThere 2).output.accepts ([(0x0068 : Word), 0x0069].flatMap (fun c =>
        c.extractLsb' 0 8 :: (if c.toNat < 256 then [] else [c.extractLsb' 8 8]))).length = true :=
  ⟨hasString_hi, by decide⟩

/-- One byte of room, at a string of two. -/
theorem witness_printShort :
    (roomFor hiThere 1).HasString ((roomFor hiThere 1).reg .r0) [0x0068, 0x0069] ∧
      (roomFor hiThere 1).output.room = some 1 ∧ 1 < [(0x0068 : Word), 0x0069].length ∧
      1 < ([(0x0068 : Word), 0x0069].flatMap (fun c =>
        c.extractLsb' 0 8 :: (if c.toNat < 256 then [] else [c.extractLsb' 8 8]))).length :=
  ⟨hasString_hi, by decide, by decide, by decide⟩

theorem witness_in :
    (roomFor State.reset 18).output.room = some 18 ∧ (roomFor State.reset 18).input.next = none ∧
      18 < (roomFor State.reset 18).cfg.inPrompt.length ∧
      twoTyped.input.next = some 0x41 ∧
      twoTyped.output.accepts (twoTyped.cfg.inPrompt.length + 1) = true ∧
      (roomFor twoTyped 19).input.next = some 0x41 ∧
      (roomFor twoTyped 19).output.room = some (roomFor twoTyped 19).cfg.inPrompt.length := by decide

theorem witness_trapLeavesAlone :
    Instr.out.isTrap = true ∧ (∃ t, exec .out State.reset = .next t) ∧
      Instr.puts.isTrap = true ∧ (∃ t, exec .puts State.reset = .next t) ∧
      Instr.getc.isTrap = true ∧ (∃ t, exec .getc twoTyped = .next t) :=
  ⟨rfl, ⟨_, rfl⟩, rfl, ⟨_, rfl⟩, rfl, ⟨_, rfl⟩⟩

theorem witness_printEnds :
    ¬ State.reset.EndlessText ∧ (roomFor State.reset 0).output.room ≠ none :=
  ⟨fun h => h.1 0 (by decide) (by decide) (by decide), by decide⟩

/-- Memory in which every cell holds the same word. -/
theorem read_all_same (l : List Nat) (v : Word) {a : Nat} (h : a ∈ l) :
    Memory.read (l.map fun k => (k, v)) a = v := by
  induction l with
  | nil => cases h
  | cons k l ih =>
    rw [List.map_cons, Memory.read_cons]
    split
    · rfl
    · rename_i hk
      obtain h | h := List.mem_cons.mp h
      · exact absurd h.symm hk
      · exact ih h

/-- A machine that holds 0x0041 in the cells of a list, with a key held down. -/
def textAt (l : List Nat) : State :=
  { State.reset with
    mem := l.map fun k => (k, 0x0041)
    input := { bytes := [], ending := .endless 0x41, polls := [], pollRest := .always true } }

theorem textAt_cell (l : List Nat) (a : Word) (h : a.toNat ∈ l) : (textAt l).cell a = 0x0041 :=
  read_all_same l 0x0041 h

/-- The machine whose whole memory holds 0x0041. -/
def endlessText : State := textAt (List.range 65536)

theorem endlessText_cell (a : Word) : endlessText.cell a = 0x0041 := by
  unfold endlessText
  exact textAt_cell _ a (List.mem_range.mpr a.isLt)

theorem witness_endless :
    endlessText.EndlessText ∧ endlessText.cell endlessText.cfg.kbdrAddr ≠ 0 ∧
      endlessText.output.room = none :=
  ⟨⟨fun a _ _ => by rw [endlessText_cell]; decide, rfl, rfl⟩, by rw [endlessText_cell]; decide, rfl⟩

/-- The string starts at `KBSR_ADDR`, a key is pressed, and KBDR is followed by a zero cell. -/
def statusText : State :=
  typed (at_ 0x3001 (regs4 0xFE00 0 0 0) .z [(0xFE01, 0x0068)]) [0x6B]

/-- 20_memory R51: the first read finds the key; 0xFE02 then holds it. -/
theorem statusText_reads :
    ReadsText [0x8000, 0x0068, 0x006B] (statusText.reg .r0) statusText statusText.pollKeyboard :=
  ⟨_, ⟨by decide, by decide, by decide, by decide, by decide, by decide, rfl⟩, rfl⟩

theorem witness_printThroughStatus :
    ReadsText [0x8000, 0x0068, 0x006B] (statusText.reg .r0) statusText statusText.pollKeyboard ∧
      ReadsText [] (atStatus.reg .r0) atStatus atStatus ∧
      statusText.output.accepts [(0x8000 : Word), 0x0068, 0x006B].length = true ∧
      (roomFor statusText 2).output.room = some 2 ∧ 2 < [(0x8000 : Word), 0x0068, 0x006B].length ∧
      ReadsText [0x8000, 0x0068, 0x006B] ((roomFor statusText 2).reg .r0) (roomFor statusText 2)
        (roomFor statusText 2).pollKeyboard :=
  ⟨statusText_reads, ⟨_, rfl, rfl⟩, by decide, rfl, by decide, statusText_reads.setOutput _⟩

/-- 44_trap R154, 20_memory R51: PUTS reads 0x8000 at KBSR and writes its low byte. -/
theorem test_puts_through_status :
    after statusText 0xF022
      (fun t => t.output.written == [0x00, 0x68, 0x6B] && t.cell 0xFE00 == 0x8000 &&
        t.input.bytes == []) = true := by decide

/-- 44_trap R156, 20_memory R51: PUTSP writes both bytes of 0x8000. -/
theorem test_putsp_through_status :
    after statusText 0xF024
      (fun t => t.output.written == [0x00, 0x80, 0x68, 0x6B] && t.cell 0xFE02 == 0x006B) = true := by
  decide

/-- 00_scope R8: an infinite source, whose next zero byte comes after two others. -/
theorem test_stream_counts :
    (InputEnding.stream 5 (some 2)).drop = .stream 6 (some 1) ∧
      (InputEnding.stream 5 (some 2)).drop.drop.next = some 0 ∧
      (PollTail.varying 0 (some 1)).answer = true ∧ (PollTail.varying 0 (some 1)).drop.answer = false :=
  ⟨rfl, rfl, rfl, rfl⟩

theorem witness_inputInOrder :
    twoTyped.input.bytes = 0x41 :: [0x42] ∧ State.reset.input.bytes = [] ∧
      State.reset.input.ending = .closed ∧ State.reset.input.polls = [] ∧
      State.reset.input.pollRest = .always true ∧ waiting.input.ending = .waits ∧
      endlessText.input.ending = .endless 0x41 ∧
      ({ State.reset.input with ending := .stream 0 (some 1) } : InputSource).ending
        = .stream 0 (some (0 + 1)) ∧
      ({ State.reset.input with pollRest := .varying 0 none } : InputSource).pollRest = .varying 0 none ∧
      ({ State.reset.input with polls := [false, true] } : InputSource).polls = false :: [true] :=
  ⟨rfl, rfl, rfl, rfl, rfl, rfl, rfl, rfl, rfl, rfl⟩

theorem witness_execNext :
    (∃ t, exec (.addReg .r0 .r1 .r2) State.reset = .next t) ∧ (∃ t, exec .puts State.reset = .next t) ∧
      (∃ t, exec (.st .r0 0) State.reset = .next t) ∧ (∃ t, exec (.jmp .r7) State.reset = .next t) :=
  ⟨⟨_, rfl⟩, ⟨_, rfl⟩, ⟨_, rfl⟩, ⟨_, rfl⟩⟩

theorem witness_setsFlags :
    (Instr.lea .r0 0).setsFlags = true ∧ (∃ t, exec (.lea .r0 0) State.reset = .next t) ∧
      (Instr.st .r0 0).setsFlags = false ∧ (∃ t, exec (.st .r0 0) State.reset = .next t) :=
  ⟨rfl, ⟨_, rfl⟩, rfl, ⟨_, rfl⟩⟩

theorem witness_touchesMemory :
    (Instr.lea .r0 0).touchesMemory = false ∧ (∃ t, exec (.lea .r0 0) State.reset = .next t) ∧
      Instr.getc.touchesMemory = false ∧ exec .getc waiting = .fault .waitsForInput :=
  ⟨rfl, ⟨_, rfl⟩, rfl, rfl⟩

theorem witness_consoleOrder : ∃ t, step (typed State.reset [0x61]) = .next t := ⟨_, rfl⟩

theorem witness_earlierOutput :
    (∃ t, step State.reset = .next t) ∧ step State.reset.enterHalted = .fault .halted :=
  ⟨⟨_, rfl⟩, rfl⟩

end Sys2Proof.Tests
end

section
/-! PROOFS. What the input source delivers and answers, listed items first, then its ending (R8, R205, R206). -/

namespace Sys2Proof.Machine

/-! ### The ending and the poll tail -/

/-- A stream's byte is zero exactly when its count is zero, and the count goes down with each byte. -/
theorem InputEnding.stream_next_drop (c : Nat) (z : Option Nat) :
    ∃ b z', (InputEnding.stream c z).next = some b ∧ (b = 0 ↔ z = some 0) ∧
      (InputEnding.stream c z).drop = .stream (c + 1) z' ∧
      (z = none → z' = none) ∧ ∀ k, z = some (k + 1) → z' = some k :=
  match z with
  | none =>
    ⟨freeNonZeroByte c, none, rfl, iff_of_false (freeNonZeroByte_ne c) nofun, rfl, fun _ => rfl, nofun⟩
  | some 0 => ⟨0, Config.freeInputGap c, rfl, by simp, rfl, nofun, nofun⟩
  | some (k + 1) =>
    ⟨freeNonZeroByte c, some k, rfl, iff_of_false (freeNonZeroByte_ne c) nofun, rfl, nofun, by simp⟩

/-- The answers of a varying tail, the "not ready" ones where the count is zero. -/
theorem PollTail.varying_answer_eq_false_iff (c : Nat) (z : Option Nat) :
    (PollTail.varying c z).answer = false ↔ z = some 0 := by
  match z with
  | none => simp [PollTail.answer]
  | some 0 => simp [PollTail.answer]
  | some (k + 1) => simp [PollTail.answer]

/-- The count of a varying tail goes down with each answer. -/
theorem PollTail.varying_drop (c : Nat) (z : Option Nat) :
    ∃ z', (PollTail.varying c z).drop = .varying (c + 1) z' ∧
      (z = none → z' = none) ∧ ∀ k, z = some (k + 1) → z' = some k :=
  match z with
  | none => ⟨none, rfl, fun _ => rfl, nofun⟩
  | some 0 => ⟨Config.freePollGap c, rfl, nofun, nofun⟩
  | some (k + 1) => ⟨some k, rfl, nofun, by simp⟩

/-! ### Listed items first, then the ending -/

theorem InputSource.next_of_bytes_cons {i : InputSource} {b : Byte} {rest : List Byte}
    (h : i.bytes = b :: rest) : i.next = some b := by
  simp [InputSource.next, h]

theorem InputSource.drop_of_bytes_cons {i : InputSource} {b : Byte} {rest : List Byte}
    (h : i.bytes = b :: rest) : i.drop = { i with bytes := rest } := by
  simp [InputSource.drop, h]

theorem InputSource.next_of_bytes_nil {i : InputSource} (h : i.bytes = []) :
    i.next = i.ending.next := by
  simp [InputSource.next, h]

theorem InputSource.drop_of_bytes_nil {i : InputSource} (h : i.bytes = []) :
    i.drop = { i with ending := i.ending.drop } := by
  simp [InputSource.drop, h]

theorem InputSource.answer_of_polls_cons {i : InputSource} {p : Bool} {rest : List Bool}
    (h : i.polls = p :: rest) : i.answer = p := by
  simp [InputSource.answer, h]

theorem InputSource.dropPoll_of_polls_cons {i : InputSource} {p : Bool} {rest : List Bool}
    (h : i.polls = p :: rest) : i.dropPoll = { i with polls := rest } := by
  simp [InputSource.dropPoll, h]

theorem InputSource.answer_of_polls_nil {i : InputSource} (h : i.polls = []) :
    i.answer = i.pollRest.answer := by
  simp [InputSource.answer, h]

theorem InputSource.dropPoll_of_polls_nil {i : InputSource} (h : i.polls = []) :
    i.dropPoll = { i with pollRest := i.pollRest.drop } := by
  simp [InputSource.dropPoll, h]

/-! ### Each form of the ending, no byte or answer listed -/

/-- An ending that taking a byte does not change leaves the source as it is. -/
theorem InputSource.drop_eq_self {i : InputSource} (h : i.bytes = [])
    (he : i.ending.drop = i.ending) : i.drop = i := by
  rw [InputSource.drop_of_bytes_nil h, he]

/-- A tail that taking an answer does not change leaves the source as it is. -/
theorem InputSource.dropPoll_eq_self {i : InputSource} (h : i.polls = [])
    (ht : i.pollRest.drop = i.pollRest) : i.dropPoll = i := by
  rw [InputSource.dropPoll_of_polls_nil h, ht]

theorem InputSource.delivers_nothing {i : InputSource} (h : i.bytes = [])
    (he : i.ending = .closed ∨ i.ending = .waits) : i.next = none ∧ i.drop = i := by
  have hnext := InputSource.next_of_bytes_nil h
  obtain he | he := he
  · exact ⟨by rw [hnext, he]; rfl, InputSource.drop_eq_self h (by rw [he]; rfl)⟩
  · exact ⟨by rw [hnext, he]; rfl, InputSource.drop_eq_self h (by rw [he]; rfl)⟩

theorem InputSource.delivers_endless {i : InputSource} {b : Byte} (h : i.bytes = [])
    (he : i.ending = .endless b) : i.next = some b ∧ i.drop = i :=
  ⟨by rw [InputSource.next_of_bytes_nil h, he]; rfl, InputSource.drop_eq_self h (by rw [he]; rfl)⟩

theorem InputSource.delivers_stream {i : InputSource} {c : Nat} {z : Option Nat} (h : i.bytes = [])
    (he : i.ending = .stream c z) :
    ∃ b z', i.next = some b ∧ (b = 0 ↔ z = some 0) ∧
      i.drop = { i with ending := .stream (c + 1) z' } ∧
      (z = none → z' = none) ∧ ∀ k, z = some (k + 1) → z' = some k := by
  obtain ⟨b, z', hnext, hzero, hdrop, hcount⟩ := InputEnding.stream_next_drop c z
  refine ⟨b, z', ?_, hzero, ?_, hcount⟩
  · rw [InputSource.next_of_bytes_nil h, he, hnext]
  · rw [InputSource.drop_of_bytes_nil h, he, hdrop]

theorem InputSource.answers_always {i : InputSource} {p : Bool} (h : i.polls = [])
    (ht : i.pollRest = .always p) : i.answer = p ∧ i.dropPoll = i :=
  ⟨by rw [InputSource.answer_of_polls_nil h, ht]; rfl,
    InputSource.dropPoll_eq_self h (by rw [ht]; rfl)⟩

theorem InputSource.answers_varying {i : InputSource} {c : Nat} {z : Option Nat} (h : i.polls = [])
    (ht : i.pollRest = .varying c z) :
    (i.answer = false ↔ z = some 0) ∧
      ∃ z', i.dropPoll = { i with pollRest := .varying (c + 1) z' } ∧
        (z = none → z' = none) ∧ ∀ k, z = some (k + 1) → z' = some k := by
  obtain ⟨z', hdrop, hcount⟩ := PollTail.varying_drop c z
  refine ⟨?_, z', ?_, hcount⟩
  · rw [InputSource.answer_of_polls_nil h, ht, PollTail.varying_answer_eq_false_iff]
  · rw [InputSource.dropPoll_of_polls_nil h, ht, hdrop]

/-- Settles O60, one lemma for each form of the bytes and of the answers. -/
theorem inputDeliversInOrder : Obligations.InputDeliversInOrder := by
  unfold Obligations.InputDeliversInOrder
  refine ⟨fun _ _ _ h => ?listedByte, fun _ h => ?ending, fun _ _ _ h => ?listedAnswer,
    fun _ h => ?pollTail⟩
  case listedByte => exact ⟨InputSource.next_of_bytes_cons h, InputSource.drop_of_bytes_cons h⟩
  case ending =>
    exact ⟨InputSource.delivers_nothing h, fun _ => InputSource.delivers_endless h,
      fun _ _ => InputSource.delivers_stream h⟩
  case listedAnswer =>
    exact ⟨InputSource.answer_of_polls_cons h, InputSource.dropPoll_of_polls_cons h⟩
  case pollTail =>
    exact ⟨fun _ => InputSource.answers_always h, fun _ _ => InputSource.answers_varying h⟩

end Sys2Proof.Machine
end

section
/-! PROOFS. The flag-update rule, one lemma for each of its three cases (R27). -/

namespace Sys2Proof.Machine

theorem condOf_zero : condOf 0 = .z := rfl

theorem condOf_of_highBit {v : Word} (h : v.getLsbD 15 = true) : condOf v = .n := by
  have hne : v ≠ 0 := by
    rintro rfl
    simp at h
  have hmsb : v.msb = true := (BitVec.msb_eq_getLsbD_last v).trans h
  rw [condOf, if_neg hne, if_pos hmsb]

theorem condOf_of_ne_zero_of_not_highBit {v : Word} (hne : v ≠ 0) (h : v.getLsbD 15 = false) :
    condOf v = .p := by
  have hmsb : ¬ v.msb = true := by
    rw [BitVec.msb_eq_getLsbD_last, h]
    exact Bool.false_ne_true
  rw [condOf, if_neg hne, if_neg hmsb]

/-- Settles O24, the flag being `condOf` of the word in every state. -/
theorem flagRule : Obligations.FlagRule := by
  unfold Obligations.FlagRule
  intro s v
  rw [State.setcc_cond]
  refine ⟨?zero, condOf_of_highBit, condOf_of_ne_zero_of_not_highBit, condOf_describes v⟩
  case zero =>
    rintro rfl
    exact condOf_zero

end Sys2Proof.Machine
end

section
/-! PROOFS. The memory primitives away from the keyboard poll (R50, R53). -/

namespace Sys2Proof.Machine

/-- Settles O19, the plain branch of `MemRead`. -/
theorem memReadPlain : Obligations.MemReadPlain := by
  unfold Obligations.MemReadPlain
  exact fun _ _ ha => State.memRead_plain ha

/-- Settles O22: a `MemWrite` is `State.setCell`, so the laws of cells give the written cell and the
others. -/
theorem memWriteVerbatim : Obligations.MemWriteVerbatim := by
  unfold Obligations.MemWriteVerbatim
  intro s a v
  have written : (s.setCell a v).cell a = v := State.cell_setCell_same s a v
  have others : SameCellsExcept [a] s (s.setCell a v) :=
    fun _ hb => State.cell_setCell_other s v (List.ne_of_not_mem_cons hb)
  rw [State.memWrite_eq]
  exact ⟨written, others, ⟨rfl, rfl⟩, ⟨rfl, rfl⟩, rfl, rfl, rfl⟩

end Sys2Proof.Machine
end

section
/-! PROOFS. Which instructions touch memory after the fetch (R56). The one fact to prove is that the others
ignore memory and poll answers: exchanging both before the instruction, or in the state it answers, is the
same. That it leaves them unchanged follows, by exchanging them for themselves. -/

namespace Sys2Proof.Machine

/-! ### Exchanging memory and poll answers -/

/-- The source `i` with the poll answers of `j`. -/
def InputSource.withPolls (i j : InputSource) : InputSource :=
  { i with polls := j.polls, pollRest := j.pollRest }

/-- The machine `s` with the memory and the poll answers of `u`. -/
def State.withMemoryAndPolls (s u : State) : State :=
  { s with mem := u.mem, input := s.input.withPolls u.input }

/-- What a `ConsoleRead` answers, the source that is left having the poll answers of `j`. -/
def ReadAnswer.withPolls (j : InputSource) : ReadAnswer → ReadAnswer
  | .byte b i => .byte b (i.withPolls j)
  | .fails => .fails
  | .waits => .waits

/-- A result, the next state having the memory and the poll answers of `u`. -/
def Result.withMemoryAndPolls (u : State) : Result → Result
  | .next t => .next (t.withMemoryAndPolls u)
  | .fault f => .fault f
  | .refused r => .refused r

/-- A meaning that neither reads nor changes memory and poll answers. -/
def IgnoresMemoryAndPolls (meaning : State → Result) : Prop :=
  ∀ s u : State, meaning (s.withMemoryAndPolls u) = Result.withMemoryAndPolls u (meaning s)

@[simp] theorem State.withMemoryAndPolls_cond (s u : State) :
    (s.withMemoryAndPolls u).cond = s.cond := rfl

@[simp] theorem State.withMemoryAndPolls_input (s u : State) :
    (s.withMemoryAndPolls u).input = s.input.withPolls u.input := rfl

@[simp] theorem State.withMemoryAndPolls_output (s u : State) :
    (s.withMemoryAndPolls u).output = s.output := rfl

/-- Exchanging memory alone. -/
theorem State.withMemoryAndPolls_withMemory (s u : State) (m : Memory) :
    s.withMemoryAndPolls (u.withMemory m) = (s.withMemoryAndPolls u).withMemory m := rfl

theorem State.withMemoryAndPolls_self (s : State) : s.withMemoryAndPolls s = s := rfl

/-! ### The console operations -/

@[simp] theorem InputSource.withPolls_ending (i j : InputSource) :
    (i.withPolls j).ending = i.ending := rfl

@[simp] theorem InputSource.withPolls_next (i j : InputSource) : (i.withPolls j).next = i.next := rfl

@[simp] theorem InputSource.withPolls_drop (i j : InputSource) :
    (i.withPolls j).drop = i.drop.withPolls j := by
  obtain ⟨bytes, ending, polls, rest⟩ := i
  cases bytes with
  | nil => rfl
  | cons b bytes => rfl

/-- A `ConsoleRead` takes a byte and no poll answer (R206). -/
theorem InputSource.withPolls_read (i j : InputSource) :
    (i.withPolls j).read = ReadAnswer.withPolls j i.read := by
  unfold InputSource.read
  rw [InputSource.withPolls_next, InputSource.withPolls_drop, InputSource.withPolls_ending]
  cases i.next with
  | some b => rfl
  | none =>
    by_cases he : i.ending = .closed
    · simp [he, ReadAnswer.withPolls]
    · simp [he, ReadAnswer.withPolls]

/-- `ConsoleRead` a byte and go on, or the I/O fault, or wait: what GETC and IN share. -/
def State.readThen (s : State) (cont : Byte → State → Result) : Result :=
  match s.input.read with
  | .byte b i => cont b (s.setInput i)
  | .fails => .next (s.raiseFault .ioFault)
  | .waits => .fault .waitsForInput

theorem execGetc_eq_readThen (s : State) :
    execGetc s = s.link.readThen fun b t => .next (t.setReg .r0 (zext8 b)) := rfl

theorem execInChar_eq_readThen (s : State) :
    execInChar s = s.link.writeThen s.cfg.inPrompt fun t =>
      t.readThen fun b u => u.writeThen [b] fun v => .next (v.setReg .r0 (zext8 b)) := rfl

theorem readThen_ignoresMemoryAndPolls {cont : Byte → State → Result}
    (hcont : ∀ b, IgnoresMemoryAndPolls (cont b)) :
    IgnoresMemoryAndPolls fun s => s.readThen cont := by
  intro s u
  simp only [State.readThen, State.withMemoryAndPolls_input, InputSource.withPolls_read]
  cases s.input.read with
  | byte b i => exact hcont b (s.setInput i) u
  | fails => rfl
  | waits => rfl

theorem writeThen_ignoresMemoryAndPolls (bytes : List Byte) {cont : State → Result}
    (hcont : IgnoresMemoryAndPolls cont) :
    IgnoresMemoryAndPolls fun s => s.writeThen bytes cont := by
  intro s u
  simp only [State.writeThen, State.withMemoryAndPolls_output]
  obtain ⟨ok, o⟩ := s.output.writeAll bytes
  cases ok with
  | true => exact hcont (s.setOutput o) u
  | false => rfl

/-! ### The instructions -/

theorem execBr_ignoresMemoryAndPolls (n z p : Bool) (off : BitVec 9) :
    IgnoresMemoryAndPolls (execBr n z p off) := by
  intro s u
  unfold execBr
  rw [State.withMemoryAndPolls_cond]
  cases branchTaken n z p s.cond with
  | true => rfl
  | false => rfl

theorem setR0_ignoresMemoryAndPolls (v : Word) :
    IgnoresMemoryAndPolls fun s => .next (s.setReg .r0 v) := fun _ _ => rfl

theorem execGetc_ignoresMemoryAndPolls : IgnoresMemoryAndPolls execGetc := by
  intro s u
  rw [execGetc_eq_readThen, execGetc_eq_readThen]
  exact readThen_ignoresMemoryAndPolls (fun b => setR0_ignoresMemoryAndPolls (zext8 b)) s.link u

theorem execOut_ignoresMemoryAndPolls : IgnoresMemoryAndPolls execOut := fun s u =>
  writeThen_ignoresMemoryAndPolls [lowByte (s.link.reg .r0)] (fun _ _ => rfl) s.link u

theorem execInChar_ignoresMemoryAndPolls : IgnoresMemoryAndPolls execInChar := by
  intro s u
  rw [execInChar_eq_readThen, execInChar_eq_readThen]
  have echo : ∀ b : Byte, IgnoresMemoryAndPolls fun t =>
      t.writeThen [b] fun v => .next (v.setReg .r0 (zext8 b)) :=
    fun b => writeThen_ignoresMemoryAndPolls [b] (setR0_ignoresMemoryAndPolls (zext8 b))
  exact writeThen_ignoresMemoryAndPolls s.cfg.inPrompt (readThen_ignoresMemoryAndPolls echo) s.link u

/-- Every instruction outside the list of R56 ignores memory and poll answers. -/
theorem exec_ignoresMemoryAndPolls {i : Instr} (h : i.touchesMemory = false) :
    IgnoresMemoryAndPolls (exec i) := by
  cases i with
  | ld | ldi | ldr | st | sti | str | puts | putsp => cases h
  | br n z p off => exact execBr_ignoresMemoryAndPolls n z p off
  | getc => exact execGetc_ignoresMemoryAndPolls
  | out => exact execOut_ignoresMemoryAndPolls
  | inChar => exact execInChar_ignoresMemoryAndPolls
  | addReg | addImm | andReg | andImm | notReg | lea => exact fun _ _ => rfl
  | jsr | jsrr | jmp | rti | res | halt | trapUnrecognised => exact fun _ _ => rfl

/-- A meaning that ignores memory and poll answers leaves them as they are. -/
theorem IgnoresMemoryAndPolls.unchanged {meaning : State → Result} (h : IgnoresMemoryAndPolls meaning)
    {s t : State} (ht : meaning s = .next t) : t.withMemoryAndPolls s = t := by
  have hself := h s s
  rw [State.withMemoryAndPolls_self, ht] at hself
  exact (Host.Outcome.next.inj hself).symm

/-- A meaning that ignores memory and poll answers does the same over any other memory. -/
theorem IgnoresMemoryAndPolls.withMemory {meaning : State → Result} (h : IgnoresMemoryAndPolls meaning)
    (s : State) (m : Memory) :
    meaning (s.withMemory m) = Result.withMemoryAndPolls (s.withMemory m) (meaning s) := by
  simpa only [State.withMemoryAndPolls_withMemory, State.withMemoryAndPolls_self] using
    h s (s.withMemory m)

/-- Settles O56, from the exchange of memory and poll answers. -/
theorem onlyMemoryInstructionsTouchMemory : Obligations.OnlyMemoryInstructionsTouchMemory := by
  unfold Obligations.OnlyMemoryInstructionsTouchMemory
  intro i s hi
  have hignores := exec_ignoresMemoryAndPolls hi
  refine ⟨fun t ht => ?unchanged, fun m => ⟨fun t ht => ?next, fun f hf => ?fault⟩⟩
  case unchanged =>
    rw [← hignores.unchanged ht]
    exact ⟨rfl, rfl, rfl⟩
  case next =>
    rw [hignores.withMemory, ht, Result.withMemoryAndPolls, State.withMemoryAndPolls_withMemory,
      hignores.unchanged ht]
  case fault => rw [hignores.withMemory, hf, Result.withMemoryAndPolls]

end Sys2Proof.Machine
end

section
/-! PROOFS. The converse laws of the decoder: the opcode number of what a word decodes to is the word's
field `inst[15:12]` (R81, R82), so each decode fault comes from the words of its own class, and the three
classes together are the illegal words (R88). -/

namespace Sys2Proof

/-- The number of an opcode slot (R82). -/
def Opcode.number : Opcode → BitVec 4
  | .br => 0x0
  | .add => 0x1
  | .ld => 0x2
  | .st => 0x3
  | .jsr => 0x4
  | .and => 0x5
  | .ldr => 0x6
  | .str => 0x7
  | .rti => 0x8
  | .not => 0x9
  | .ldi => 0xA
  | .sti => 0xB
  | .jmp => 0xC
  | .res => 0xD
  | .lea => 0xE
  | .trap => 0xF

theorem Opcode.number_ofBits : ∀ v : BitVec 4,
    (Opcode.ofBits (v.getLsbD 3) (v.getLsbD 2) (v.getLsbD 1) (v.getLsbD 0)).number = v := by
  decide

theorem opcode_number (w : Word) : (opcode w).number = w.extractLsb' 12 4 := by
  rw [opcode_of_field rfl, Opcode.number_ofBits]

theorem opcodeNumber_decodeTrap (v : BitVec 8) : Laws.opcodeNumber (decodeTrap v) = 0xF := by
  revert v
  decide

/-- Decoding keeps the opcode number. -/
theorem opcodeNumber_decode (w : Word) : Laws.opcodeNumber (decode w) = w.extractLsb' 12 4 := by
  rw [← opcode_number]
  unfold decode
  cases opcode w with
  | add | and | jsr =>
    dsimp only
    split
    · rfl
    · rfl
  | trap => exact opcodeNumber_decodeTrap _
  | br | ld | st | ldr | str | rti | not | ldi | sti | jmp | res | lea => rfl

theorem opcodeField_of_decode_eq {w : Word} {i : Instr} (h : decode w = i) :
    w.extractLsb' 12 4 = Laws.opcodeNumber i := by
  rw [← h, opcodeNumber_decode]

theorem decode_eq_res_iff (w : Word) : decode w = .res ↔ w.extractLsb' 12 4 = 0xD := by
  refine ⟨opcodeField_of_decode_eq, fun h => ?_⟩
  rw [decode, opcode_of_field h]
  rfl

theorem decode_eq_rti_iff (w : Word) : decode w = .rti ↔ w.extractLsb' 12 4 = 0x8 := by
  refine ⟨opcodeField_of_decode_eq, fun h => ?_⟩
  rw [decode, opcode_of_field h]
  rfl

theorem decode_of_trap {w : Word} (h : w.extractLsb' 12 4 = 0xF) :
    decode w = decodeTrap (w.extractLsb' 0 8) := by
  rw [decode, opcode_of_field h]
  rfl

theorem decodeTrap_of_not_recognised {v : BitVec 8} (h : recognisedVector v = false) :
    decodeTrap v = .trapUnrecognised v := by
  revert v
  decide

theorem decodeTrap_wf (v : BitVec 8) : (decodeTrap v).wf = true := by
  revert v
  decide

/-- A vector outside the six keeps its value; a recognised one selects a routine (R151, R158). -/
theorem decodeTrap_eq_trapUnrecognised_iff (v u : BitVec 8) :
    decodeTrap v = .trapUnrecognised u ↔ v = u ∧ recognisedVector u = false := by
  constructor
  · intro h
    have hu : v = u := by
      unfold decodeTrap at h
      split_ifs at h
      exact Instr.trapUnrecognised.inj h
    have hwf := decodeTrap_wf v
    rw [h, Instr.wf, Bool.not_eq_true'] at hwf
    exact ⟨hu, hwf⟩
  · rintro ⟨rfl, h⟩
    exact decodeTrap_of_not_recognised h

theorem decode_eq_trapUnrecognised_iff (w : Word) (u : BitVec 8) :
    decode w = .trapUnrecognised u ↔
      w.extractLsb' 12 4 = 0xF ∧ w.extractLsb' 0 8 = u ∧ recognisedVector u = false := by
  rw [← decodeTrap_eq_trapUnrecognised_iff]
  constructor
  · intro h
    have htrap : w.extractLsb' 12 4 = 0xF := opcodeField_of_decode_eq h
    exact ⟨htrap, (decode_of_trap htrap).symm.trans h⟩
  · rintro ⟨htrap, h⟩
    exact (decode_of_trap htrap).trans h

theorem recognisedVector_eq_false_iff (v : BitVec 8) :
    recognisedVector v = false ↔ v.toNat < 0x20 ∨ 0x25 < v.toNat := by
  rw [recognisedVector, decide_eq_false_iff_not]
  omega

/-- The instructions that end in a decode fault: RES, RTI and TRAP with an unrecognised vector (R170,
R171, R158). -/
def Instr.Illegal (i : Instr) : Prop := i = .res ∨ i = .rti ∨ ∃ v, i = .trapUnrecognised v

/-- The illegal words are those of the illegal instructions. -/
theorem illegal_decode_iff (w : Word) : (decode w).Illegal ↔ illegalWord w := by
  simp only [Instr.Illegal, illegalWord, decode_eq_res_iff, decode_eq_rti_iff,
    decode_eq_trapUnrecognised_iff, exists_and_left, exists_eq_left', recognisedVector_eq_false_iff]

end Sys2Proof
end

section
/-! PROOFS. What an instruction makes of the run state (R30, R190), said once: an instruction that uses the
console goes on or ends in the I/O fault, and every other one always completes, in the run state its
kind gives. -/

namespace Sys2Proof

/-- The instructions that use the console ports: GETC, OUT, PUTS, IN, PUTSP (R152 to R156). -/
def Instr.usesConsole : Instr → Bool
  | .getc | .out | .puts | .inChar | .putsp => true
  | _ => false

/-- The run state after an instruction that meets no I/O fault, from the one before it (R157, R158, R170,
R171). -/
def Instr.runAfter : Instr → Machine.RunState → Machine.RunState
  | .halt, _ => .halted
  | .res, _ => .faulted .resOpcode
  | .rti, _ => .faulted .rtiOpcode
  | .trapUnrecognised _, _ => .faulted .badTrapVector
  | _, r => r

theorem Instr.Illegal.usesConsole_eq_false {i : Instr} (h : i.Illegal) : i.usesConsole = false := by
  obtain rfl | rfl | ⟨v, rfl⟩ := h
  · rfl
  · rfl
  · rfl

theorem Instr.Illegal.runAfter_eq_faulted {i : Instr} (h : i.Illegal) (r : Machine.RunState) :
    ∃ c, i.runAfter r = .faulted c ∧ c ≠ .ioFault := by
  obtain rfl | rfl | ⟨v, rfl⟩ := h
  · exact ⟨.resOpcode, rfl, nofun⟩
  · exact ⟨.rtiOpcode, rfl, nofun⟩
  · exact ⟨.badTrapVector, rfl, nofun⟩

/-- From `RUNNING` a legal instruction that meets no I/O fault ends in no fault. -/
theorem Instr.runAfter_running_ne_faulted {i : Instr} (h : ¬ i.Illegal) (c : Machine.FaultCause) :
    i.runAfter .running ≠ .faulted c := by
  cases i with
  | res => exact absurd (.inl rfl) h
  | rti => exact absurd (.inr (.inl rfl)) h
  | trapUnrecognised v => exact absurd (.inr (.inr ⟨v, rfl⟩)) h
  | _ => nofun

end Sys2Proof

namespace Sys2Proof.Machine

@[simp] theorem State.loadFrom_run (s : State) (dr : Reg) (ea : Word) :
    (s.loadFrom dr ea).run = s.run :=
  s.memRead_run ea

/-- An instruction that does not use the console completes in every state. -/
theorem exec_completes {i : Instr} (h : i.usesConsole = false) (s : State) :
    ∃ t, exec i s = .next t ∧ t.run = i.runAfter s.run := by
  cases i with
  | getc | out | puts | inChar | putsp => cases h
  | br n z p off => exact ⟨_, rfl, by split <;> rfl⟩
  | ld dr off => exact ⟨_, rfl, s.loadFrom_run dr _⟩
  | ldr dr base off => exact ⟨_, rfl, s.loadFrom_run dr _⟩
  | ldi dr off => exact ⟨_, rfl, (State.loadFrom_run _ dr _).trans (s.memRead_run _)⟩
  | sti sr off => exact ⟨_, rfl, s.memRead_run _⟩
  | _ => exact ⟨_, rfl, rfl⟩

/-- A console routine that completes goes on or ends in the I/O fault. -/
theorem exec_console_run {i : Instr} (h : i.usesConsole = true) {s t : State}
    (ht : exec i s = .next t) : t.run = s.run ∨ t.run = .faulted .ioFault := by
  cases i with
  | getc =>
    obtain ⟨b, -, rfl⟩ | ⟨-, -, rfl⟩ := execGetc_next ht
    · exact .inl rfl
    · exact .inr rfl
  | out =>
    obtain ⟨-, -, hrun⟩ := execOut_next ht
    exact hrun
  | inChar =>
    obtain ⟨u, -, -, ⟨rfl, hrun⟩ | ⟨b, rfl, hrun⟩⟩ := execInChar_next ht
    · exact .inr hrun
    · exact .inl hrun
  | puts | putsp => exact (stringLoop_next ht).2
  | _ => cases h

/-- Settles O6: a word is illegal exactly if its instruction is, and what an instruction makes of the run
state is said by `exec_completes` and `exec_console_run`. -/
theorem illegalWordsFault : Obligations.IllegalWordsFault := by
  unfold Obligations.IllegalWordsFault
  intro w s hs
  rw [← illegal_decode_iff]
  refine ⟨fun hillegal => ?illegal, fun hlegal t ht c hc => ?legal⟩
  case illegal =>
    obtain ⟨t, ht, hrun⟩ := exec_completes hillegal.usesConsole_eq_false s
    obtain ⟨c, hc, hne⟩ := hillegal.runAfter_eq_faulted s.run
    exact ⟨t, c, ht, hrun.trans hc, hne⟩
  case legal =>
    cases hconsole : (decode w).usesConsole with
    | true =>
      obtain hrun | hrun := exec_console_run hconsole ht
      · rw [hrun, hs] at hc
        cases hc
      · rw [hrun] at hc
        exact (RunState.faulted.inj hc).symm
    | false =>
      obtain ⟨u, hu, hrun⟩ := exec_completes hconsole s
      obtain rfl : u = t := Host.Outcome.next.inj (hu.symm.trans ht)
      rw [hrun, hs] at hc
      exact absurd hc (Instr.runAfter_running_ne_faulted hlegal c)

end Sys2Proof.Machine
end

section
/-! PROOFS. ADD, AND and NOT (R110 to R115): the decoder's equation for each of their opcodes, the word
each instruction writes to its destination register, and the bits of a sign-extended mask. What else
changes is said by `State.writeResult_frame`. -/

namespace Sys2Proof

theorem decode_of_add {w : Word} (h : w.extractLsb' 12 4 = 0x1) :
    decode w = if w.getLsbD 5 then .addImm (regA w) (regB w) (imm5 w)
      else .addReg (regA w) (regB w) (regC w) := by
  rw [decode, opcode_of_field h]
  rfl

theorem decode_of_and {w : Word} (h : w.extractLsb' 12 4 = 0x5) :
    decode w = if w.getLsbD 5 then .andImm (regA w) (regB w) (imm5 w)
      else .andReg (regA w) (regB w) (regC w) := by
  rw [decode, opcode_of_field h]
  rfl

theorem decode_of_not {w : Word} (h : w.extractLsb' 12 4 = 0x9) :
    decode w = .notReg (regA w) (regB w) := by
  rw [decode, opcode_of_field h]
  rfl

end Sys2Proof

namespace Sys2Proof.Machine

theorem exec_addReg (dr sr1 sr2 : Reg) (s : State) :
    exec (.addReg dr sr1 sr2) s = .next (s.writeResult dr (s.reg sr1 + s.reg sr2)) := rfl

theorem exec_addImm (dr sr1 : Reg) (imm : BitVec 5) (s : State) :
    exec (.addImm dr sr1 imm) s = .next (s.writeResult dr (s.reg sr1 + sext imm)) := rfl

theorem exec_andReg (dr sr1 sr2 : Reg) (s : State) :
    exec (.andReg dr sr1 sr2) s = .next (s.writeResult dr (s.reg sr1 &&& s.reg sr2)) := rfl

theorem exec_andImm (dr sr1 : Reg) (imm : BitVec 5) (s : State) :
    exec (.andImm dr sr1 imm) s = .next (s.writeResult dr (s.reg sr1 &&& sext imm)) := rfl

theorem exec_notReg (dr sr : Reg) (s : State) :
    exec (.notReg dr sr) s = .next (s.writeResult dr (~~~ s.reg sr)) := rfl

/-- The bits of a sign-extended operand above its field repeat the field's top bit (R85). -/
theorem getLsbD_sext {n : Nat} (v : BitVec n) {k : Nat} (hk : k < 16) :
    (sext v).getLsbD k = v.getLsbD (min k (n - 1)) := by
  rw [sext, BitVec.getLsbD_signExtend, decide_eq_true hk, Bool.true_and]
  split
  case isTrue hfield => rw [Nat.min_eq_left (Nat.le_sub_one_of_lt hfield)]
  case isFalse habove =>
    rw [BitVec.msb_eq_getLsbD_last, Nat.min_eq_right (by omega)]

/-- Settles O25: the result is the sum of the two source words as they stood before the write. -/
theorem addRegisterForm : Obligations.AddRegisterForm := by
  unfold Obligations.AddRegisterForm
  refine ⟨fun w hop h5 => ?encoding, fun dr sr1 sr2 s => ?meaning⟩
  case encoding =>
    have hdecode : decode w = .addReg (regA w) (regB w) (regC w) :=
      (decode_of_add hop).trans (if_neg (Bool.eq_false_iff.mp h5))
    exact ⟨_, _, _, hdecode, toBits_regA w, toBits_regB w, toBits_regC w⟩
  case meaning =>
    refine ⟨_, exec_addReg dr sr1 sr2 s, ?_, s.writeResult_frame dr _⟩
    rw [State.reg_writeResult_same]
    exact BitVec.toNat_add _ _

/-- Settles O26: adding the sign-extended immediate adds its signed value modulo 2^16. -/
theorem addImmediateForm : Obligations.AddImmediateForm := by
  unfold Obligations.AddImmediateForm
  refine ⟨fun w hop h5 => ?encoding, fun dr sr1 imm s => ?meaning⟩
  case encoding =>
    have hdecode : decode w = .addImm (regA w) (regB w) (imm5 w) :=
      (decode_of_add hop).trans (if_pos h5)
    exact ⟨_, _, hdecode, toBits_regA w, toBits_regB w⟩
  case meaning =>
    refine ⟨_, exec_addImm dr sr1 imm s, ?_, s.writeResult_frame dr _⟩
    rw [State.reg_writeResult_same]
    exact toNat_add_sext (s.reg sr1) imm (by decide)

/-- Settles O27, bit by bit on the two source words as they stood before the write. -/
theorem andRegisterForm : Obligations.AndRegisterForm := by
  unfold Obligations.AndRegisterForm
  refine ⟨fun w hop h5 => ?encoding, fun dr sr1 sr2 s => ?meaning⟩
  case encoding =>
    have hdecode : decode w = .andReg (regA w) (regB w) (regC w) :=
      (decode_of_and hop).trans (if_neg (Bool.eq_false_iff.mp h5))
    exact ⟨_, _, _, hdecode, toBits_regA w, toBits_regB w, toBits_regC w⟩
  case meaning =>
    refine ⟨_, exec_andReg dr sr1 sr2 s, fun k _ => ?_, s.writeResult_frame dr _⟩
    rw [State.reg_writeResult_same]
    exact BitVec.getLsbD_and

/-- Settles O28: the mask is the sign-extended immediate, whose bits `getLsbD_sext` gives. -/
theorem andImmediateForm : Obligations.AndImmediateForm := by
  unfold Obligations.AndImmediateForm
  refine ⟨fun w hop h5 => ?encoding, fun dr sr1 imm s => ?meaning⟩
  case encoding =>
    have hdecode : decode w = .andImm (regA w) (regB w) (imm5 w) :=
      (decode_of_and hop).trans (if_pos h5)
    exact ⟨_, _, hdecode, toBits_regA w, toBits_regB w⟩
  case meaning =>
    refine ⟨_, exec_andImm dr sr1 imm s, fun k hk => ?_, s.writeResult_frame dr _⟩
    rw [State.reg_writeResult_same, BitVec.getLsbD_and, getLsbD_sext imm hk]

/-- Settles O29: the complement of a 16-bit word is its distance from `0xFFFF`. -/
theorem notComplements : Obligations.NotComplements := by
  unfold Obligations.NotComplements
  refine ⟨fun w hop => ?encoding, fun dr sr s => ?meaning⟩
  case encoding => exact ⟨_, _, decode_of_not hop, toBits_regA w, toBits_regB w⟩
  case meaning =>
    refine ⟨_, exec_notReg dr sr s, ?_, s.writeResult_frame dr _⟩
    rw [State.reg_writeResult_same]
    exact BitVec.toNat_not

end Sys2Proof.Machine
end

section
/-! PROOFS. BR, JMP and JSR (R120 to R122): the decoder's equation for each of their opcodes, the state
each instruction answers, and what setting `pc` leaves unchanged. -/

namespace Sys2Proof

theorem decode_of_br {w : Word} (h : w.extractLsb' 12 4 = 0x0) :
    decode w = .br (w.getLsbD 11) (w.getLsbD 10) (w.getLsbD 9) (pcOffset9 w) := by
  rw [decode, opcode_of_field h]
  rfl

/-- JSR and JSRR share opcode 0100; bit 11 tells them apart. -/
theorem decode_of_jsr {w : Word} (h : w.extractLsb' 12 4 = 0x4) :
    decode w = if w.getLsbD 11 then .jsr (pcOffset11 w) else .jsrr (regB w) := by
  rw [decode, opcode_of_field h]
  rfl

theorem decode_of_jmp {w : Word} (h : w.extractLsb' 12 4 = 0xC) : decode w = .jmp (regB w) := by
  rw [decode, opcode_of_field h]
  rfl

end Sys2Proof

namespace Sys2Proof.Machine

theorem branchTaken_iff {n z p : Bool} {c : Cond} :
    branchTaken n z p c = true ↔
      n = true ∧ c = .n ∨ z = true ∧ c = .z ∨ p = true ∧ c = .p := by
  cases c with
  | n | z | p => simp [branchTaken]

/-- BR always sets `pc`: an untaken branch sets it to the incremented `pc` it already holds. -/
theorem exec_br (n z p : Bool) (off : BitVec 9) (s : State) :
    exec (.br n z p off) s =
      .next (s.setPc (if branchTaken n z p s.cond then s.pcRel9 off else s.pc)) := by
  change execBr n z p off s = _
  unfold execBr
  split
  case isTrue => rfl
  case isFalse => rfl

theorem exec_jmp (base : Reg) (s : State) : exec (.jmp base) s = .next (s.setPc (s.reg base)) := rfl

theorem exec_jsr (off : BitVec 11) (s : State) :
    exec (.jsr off) s = .next (s.link.setPc (s.pcRel11 off)) := rfl

theorem State.setPc_frame (s : State) (v : Word) :
    SameRegsExcept [] s (s.setPc v) ∧ (s.setPc v).cond = s.cond ∧ RegisterOnly s (s.setPc v) :=
  ⟨fun r _ => s.setPc_reg v r, s.setPc_cond v, fun a _ => s.setPc_cell v a,
    ⟨s.setPc_input v, s.setPc_output v⟩, s.setPc_run v, s.setPc_cfg v⟩

/-- What a linking jump changes besides `pc` is what the link changes. -/
theorem State.link_setPc_frame (s : State) (v : Word) :
    SameRegsExcept [.r7] s (s.link.setPc v) ∧ (s.link.setPc v).cond = s.cond ∧
      RegisterOnly s (s.link.setPc v) := by
  obtain ⟨-, hregs, -, hcond, hrest⟩ := s.link_frame
  exact ⟨hregs, hcond, hrest⟩

/-- Settles O30: the condition of the statement is `branchTaken`, which selects the new `pc`. -/
theorem branchOnFlags : Obligations.BranchOnFlags := by
  unfold Obligations.BranchOnFlags
  refine ⟨fun _ hop => decode_of_br hop, fun n z p off s => ?meaning⟩
  case meaning =>
    refine ⟨_, exec_br n z p off s, fun htaken => ?taken, fun huntaken => ?untaken, s.setPc_frame _⟩
    case taken => exact if_pos (branchTaken_iff.mpr htaken)
    case untaken => exact if_neg (mt branchTaken_iff.mp huntaken)

/-- Settles O31: JMP sets `pc` to the base register and nothing else. -/
theorem jumpThroughRegister : Obligations.JumpThroughRegister := by
  unfold Obligations.JumpThroughRegister
  refine ⟨fun w hop => ?encoding, fun base s => ?meaning⟩
  case encoding => exact ⟨_, decode_of_jmp hop, toBits_regB w⟩
  case meaning => exact ⟨_, exec_jmp base s, s.setPc_pc _, s.setPc_frame _⟩

/-- Settles O32: the link keeps the incremented `pc` that the target is relative to. -/
theorem jsrLinksAndBranches : Obligations.JsrLinksAndBranches := by
  unfold Obligations.JsrLinksAndBranches
  refine ⟨fun w hop h11 => ?encoding, fun off s => ?meaning⟩
  case encoding => exact (decode_of_jsr hop).trans (if_pos h11)
  case meaning =>
    exact ⟨_, exec_jsr off s, s.reg_link_r7, s.link.setPc_pc _, s.link_setPc_frame _⟩

end Sys2Proof.Machine
end

section
/-! PROOFS. LD, LDI, LDR and LEA (R130 to R134): the decoder's equation for each of their opcodes, the
state each instruction answers, and what `State.loadFrom`, the common tail of the first three, changes:
its destination register and the flags, and besides these only what its `MemRead` changes. -/

namespace Sys2Proof

theorem decode_of_ld {w : Word} (h : w.extractLsb' 12 4 = 0x2) :
    decode w = .ld (regA w) (pcOffset9 w) := by
  rw [decode, opcode_of_field h]
  rfl

theorem decode_of_ldr {w : Word} (h : w.extractLsb' 12 4 = 0x6) :
    decode w = .ldr (regA w) (regB w) (offset6 w) := by
  rw [decode, opcode_of_field h]
  rfl

theorem decode_of_ldi {w : Word} (h : w.extractLsb' 12 4 = 0xA) :
    decode w = .ldi (regA w) (pcOffset9 w) := by
  rw [decode, opcode_of_field h]
  rfl

theorem decode_of_lea {w : Word} (h : w.extractLsb' 12 4 = 0xE) :
    decode w = .lea (regA w) (pcOffset9 w) := by
  rw [decode, opcode_of_field h]
  rfl

end Sys2Proof

namespace Sys2Proof.Machine

theorem exec_ld (dr : Reg) (off : BitVec 9) (s : State) :
    exec (.ld dr off) s = .next (s.loadFrom dr (s.pcRel9 off)) := rfl

theorem exec_ldi (dr : Reg) (off : BitVec 9) (s : State) :
    exec (.ldi dr off) s =
      .next ((s.memRead (s.pcRel9 off)).2.loadFrom dr (s.memRead (s.pcRel9 off)).1) := rfl

theorem exec_ldr (dr base : Reg) (off : BitVec 6) (s : State) :
    exec (.ldr dr base off) s = .next (s.loadFrom dr (s.baseOff base off)) := rfl

theorem exec_lea (dr : Reg) (off : BitVec 9) (s : State) :
    exec (.lea dr off) s = .next (s.writeResult dr (s.pcRel9 off)) := rfl

/-! ### Frames of reads -/

theorem SameCellsExcept.trans {as bs : List Word} {s t u : State} (h : SameCellsExcept as s t)
    (k : SameCellsExcept bs t u) : SameCellsExcept (as ++ bs) s u := by
  intro a ha
  obtain ⟨has, hbs⟩ := not_or.mp (mt List.mem_append.mpr ha)
  exact (k a hbs).trans (h a has)

/-- A read does not change which cells a later read may touch: the device addresses are fixed. -/
@[simp] theorem State.memRead_cellsTouchedByRead (s : State) (a b : Word) :
    (s.memRead a).2.cellsTouchedByRead b = s.cellsTouchedByRead b := by
  simp [State.cellsTouchedByRead]

/-! ### `State.loadFrom` -/

@[simp] theorem State.loadFrom_pc (s : State) (dr : Reg) (ea : Word) :
    (s.loadFrom dr ea).pc = s.pc := s.memRead_pc ea

@[simp] theorem State.loadFrom_mem (s : State) (dr : Reg) (ea : Word) :
    (s.loadFrom dr ea).mem = (s.memRead ea).2.mem := rfl

@[simp] theorem State.loadFrom_input (s : State) (dr : Reg) (ea : Word) :
    (s.loadFrom dr ea).input = (s.memRead ea).2.input := rfl

@[simp] theorem State.loadFrom_output (s : State) (dr : Reg) (ea : Word) :
    (s.loadFrom dr ea).output = s.output := s.memRead_output ea

@[simp] theorem State.loadFrom_cfg (s : State) (dr : Reg) (ea : Word) :
    (s.loadFrom dr ea).cfg = s.cfg := s.memRead_cfg ea

@[simp] theorem State.loadFrom_reg_same (s : State) (dr : Reg) (ea : Word) :
    (s.loadFrom dr ea).reg dr = (s.memRead ea).1 := State.reg_writeResult_same _ _ _

/-- A load writes no register but its destination. -/
theorem State.loadFrom_regs (s : State) (dr : Reg) (ea : Word) :
    SameRegsExcept [dr] s (s.loadFrom dr ea) := by
  intro r hr
  calc (s.loadFrom dr ea).reg r
    _ = (s.memRead ea).2.reg r := State.reg_writeResult_other _ _ (List.ne_of_not_mem_cons hr)
    _ = s.reg r := s.memRead_reg ea r

/-- A load changes at most the cells its read may touch. -/
theorem State.loadFrom_cells (s : State) (dr : Reg) (ea : Word) :
    SameCellsExcept (s.cellsTouchedByRead ea) s (s.loadFrom dr ea) := s.memRead_cells ea

/-- The flags of a load are the sign of the word it loads (R28). -/
theorem State.loadFrom_cond_describes (s : State) (dr : Reg) (ea : Word) :
    (s.loadFrom dr ea).cond.Describes ((s.loadFrom dr ea).reg dr) :=
  ((s.memRead ea).2.writeResult_frame dr (s.memRead ea).1).1

/-- A load away from `KBSR_ADDR` writes the cell's content as it stood, and polls nothing. -/
theorem State.loadFrom_plain {s : State} {ea : Word} (dr : Reg) (h : ea ≠ s.cfg.kbsrAddr) :
    s.loadFrom dr ea = s.writeResult dr (s.cell ea) := by
  rw [State.loadFrom, State.memRead_plain h]

theorem State.loadFrom_plain_reg_input {s : State} {ea : Word} (dr : Reg)
    (h : ea ≠ s.cfg.kbsrAddr) :
    (s.loadFrom dr ea).reg dr = s.cell ea ∧ (s.loadFrom dr ea).input = s.input := by
  rw [State.loadFrom_plain dr h]
  exact ⟨s.reg_writeResult_same dr _, s.writeResult_input dr _⟩

/-- What a load leaves unchanged, and what its read makes of memory and input. -/
theorem State.loadFrom_frame (s : State) (dr : Reg) (ea : Word) :
    SameRegsExcept [dr] s (s.loadFrom dr ea) ∧ (s.loadFrom dr ea).pc = s.pc ∧
      (s.loadFrom dr ea).mem = (s.memRead ea).2.mem ∧
      (s.loadFrom dr ea).input = (s.memRead ea).2.input ∧
      SameCellsExcept (s.cellsTouchedByRead ea) s (s.loadFrom dr ea) ∧
      (s.loadFrom dr ea).output = s.output ∧ SameControl s (s.loadFrom dr ea) :=
  ⟨s.loadFrom_regs dr ea, s.loadFrom_pc dr ea, s.loadFrom_mem dr ea, s.loadFrom_input dr ea,
    s.loadFrom_cells dr ea, s.loadFrom_output dr ea, s.loadFrom_run dr ea, s.loadFrom_cfg dr ea⟩

/-! ### The instructions -/

/-- Settles O34: LD is a load from the `pc`-relative address. -/
theorem loadPcRelative : Obligations.LoadPcRelative := by
  unfold Obligations.LoadPcRelative
  refine ⟨fun w hop => ?encoding, fun dr off s => ?meaning⟩
  case encoding => exact ⟨_, decode_of_ld hop, toBits_regA w⟩
  case meaning =>
    exact ⟨_, exec_ld dr off s, s.loadFrom_reg_same dr _, s.loadFrom_cond_describes dr _,
      State.loadFrom_plain_reg_input dr, s.loadFrom_frame dr _⟩

/-- Settles O35: LDI is a load in the state that the read of the pointer leaves; the frames of the two
reads compose. -/
theorem loadIndirect : Obligations.LoadIndirect := by
  unfold Obligations.LoadIndirect
  refine ⟨fun w hop => ?encoding, fun dr off s => ?meaning⟩
  case encoding => exact ⟨_, decode_of_ldi hop, toBits_regA w⟩
  case meaning =>
    intro ptr
    obtain ⟨hregs, hpc, hmem, hinput, hcells, houtput, hrun, hcfg⟩ := ptr.2.loadFrom_frame dr ptr.1
    refine ⟨_, exec_ldi dr off s, ptr.2.loadFrom_reg_same dr _, ptr.2.loadFrom_cond_describes dr _,
      fun hptr hcell => ?plain, fun r hr => ?regs, hpc.trans (s.memRead_pc _), hmem, hinput, ?cells,
      houtput.trans (s.memRead_output _), hrun.trans (s.memRead_run _), hcfg.trans (s.memRead_cfg _)⟩
    case plain =>
      rw [State.memRead_plain hptr]
      exact State.loadFrom_plain_reg_input dr hcell
    case regs => exact (hregs r hr).trans (s.memRead_reg _ r)
    case cells =>
      rw [State.memRead_cellsTouchedByRead] at hcells
      exact (s.memRead_cells _).trans hcells

/-- Settles O36: LDR is a load from an address made of the base register before the write. -/
theorem loadBaseOffset : Obligations.LoadBaseOffset := by
  unfold Obligations.LoadBaseOffset
  refine ⟨fun w hop => ?encoding, fun dr base off s => ?meaning⟩
  case encoding => exact ⟨_, _, decode_of_ldr hop, toBits_regA w, toBits_regB w⟩
  case meaning =>
    exact ⟨_, exec_ldr dr base off s, s.loadFrom_reg_same dr _, s.loadFrom_cond_describes dr _,
      State.loadFrom_plain_reg_input dr, s.loadFrom_frame dr _⟩

/-- Settles O37: LEA writes the address itself as its result, which reads no memory. -/
theorem loadEffectiveAddress : Obligations.LoadEffectiveAddress := by
  unfold Obligations.LoadEffectiveAddress
  refine ⟨fun w hop => ?encoding, fun dr off s => ?meaning⟩
  case encoding => exact ⟨_, decode_of_lea hop, toBits_regA w⟩
  case meaning =>
    exact ⟨_, exec_lea dr off s, s.reg_writeResult_same dr _, s.writeResult_frame dr _⟩

end Sys2Proof.Machine
end

section
/-! PROOFS. ST, STI and STR (R140 to R142): the decoder's equation for each of their opcodes, the state
each instruction answers, and what `MemWrite`, the tail of all three, changes: the one cell it writes. -/

namespace Sys2Proof

theorem decode_of_st {w : Word} (h : w.extractLsb' 12 4 = 0x3) :
    decode w = .st (regA w) (pcOffset9 w) := by
  rw [decode, opcode_of_field h]
  rfl

theorem decode_of_str {w : Word} (h : w.extractLsb' 12 4 = 0x7) :
    decode w = .str (regA w) (regB w) (offset6 w) := by
  rw [decode, opcode_of_field h]
  rfl

theorem decode_of_sti {w : Word} (h : w.extractLsb' 12 4 = 0xB) :
    decode w = .sti (regA w) (pcOffset9 w) := by
  rw [decode, opcode_of_field h]
  rfl

end Sys2Proof

namespace Sys2Proof.Machine

theorem exec_st (sr : Reg) (off : BitVec 9) (s : State) :
    exec (.st sr off) s = .next (s.memWrite (s.pcRel9 off) (s.reg sr)) := rfl

theorem exec_sti (sr : Reg) (off : BitVec 9) (s : State) :
    exec (.sti sr off) s =
      .next ((s.memRead (s.pcRel9 off)).2.memWrite (s.memRead (s.pcRel9 off)).1 (s.reg sr)) := rfl

theorem exec_str (sr base : Reg) (off : BitVec 6) (s : State) :
    exec (.str sr base off) s = .next (s.memWrite (s.baseOff base off) (s.reg sr)) := rfl

/-- A write changes at most the cell it names. -/
theorem State.memWrite_cells (s : State) (a v : Word) : SameCellsExcept [a] s (s.memWrite a v) :=
  fun _ hb => s.cell_setCell_other v (List.ne_of_not_mem_cons hb)

/-- What a write changes, the cell it names, and what it leaves unchanged, all the rest (R53). -/
theorem State.memWrite_frame (s : State) (a v : Word) :
    (s.memWrite a v).cell a = v ∧ SameCellsExcept [a] s (s.memWrite a v) ∧
      SameRegsExcept [] s (s.memWrite a v) ∧ (s.memWrite a v).pc = s.pc ∧
      (s.memWrite a v).cond = s.cond ∧ SameConsole s (s.memWrite a v) ∧
      SameControl s (s.memWrite a v) :=
  ⟨s.cell_setCell_same a v, s.memWrite_cells a v, fun r _ => s.setCell_reg a v r,
    s.setCell_pc a v, s.setCell_cond a v, ⟨s.setCell_input a v, s.setCell_output a v⟩,
    s.setCell_run a v, s.setCell_cfg a v⟩

/-! ### The instructions -/

/-- Settles O38: ST is a write to the `pc`-relative address. -/
theorem storePcRelative : Obligations.StorePcRelative := by
  unfold Obligations.StorePcRelative
  refine ⟨fun w hop => ?encoding, fun sr off s => ?meaning⟩
  case encoding => exact ⟨_, decode_of_st hop, toBits_regA w⟩
  case meaning => exact ⟨_, exec_st sr off s, s.memWrite_frame _ _⟩

/-- Settles O39: STI is a write in the state that the read of the pointer leaves; against the state
before, the cells of the read are added to the one written. -/
theorem storeIndirect : Obligations.StoreIndirect := by
  unfold Obligations.StoreIndirect
  refine ⟨fun w hop => ?encoding, fun sr off s => ?meaning⟩
  case encoding => exact ⟨_, decode_of_sti hop, toBits_regA w⟩
  case meaning =>
    intro ptr
    obtain ⟨hcell, hcells, hregs, hpc, hcond, ⟨hinput, houtput⟩, hrun, hcfg⟩ :=
      ptr.2.memWrite_frame ptr.1 (s.reg sr)
    refine ⟨_, exec_sti sr off s, hcell, hcells, fun a ha => ?cells, fun hptr => ?plain,
      fun r hr => ?regs, hpc.trans (s.memRead_pc _), hcond.trans (s.memRead_cond _), hinput,
      houtput.trans (s.memRead_output _), hrun.trans (s.memRead_run _), hcfg.trans (s.memRead_cfg _)⟩
    case cells =>
      obtain ⟨hwritten, hread⟩ := List.ne_and_not_mem_of_not_mem_cons ha
      exact (hcells a (mt List.mem_singleton.mp hwritten)).trans (s.memRead_cells _ a hread)
    case plain =>
      have hquiet : ptr = (s.cell (s.pcRel9 off), s) := State.memRead_plain hptr
      exact ⟨congrArg Prod.fst hquiet, hinput.trans (congrArg (·.2.input) hquiet)⟩
    case regs => exact (hregs r hr).trans (s.memRead_reg _ r)

/-- Settles O40: STR is a write to an address made of the base register, which it does not modify. -/
theorem storeBaseOffset : Obligations.StoreBaseOffset := by
  unfold Obligations.StoreBaseOffset
  refine ⟨fun w hop => ?encoding, fun sr base off s => ?meaning⟩
  case encoding => exact ⟨_, _, decode_of_str hop, toBits_regA w, toBits_regB w⟩
  case meaning => exact ⟨_, exec_str sr base off s, s.memWrite_frame _ _⟩

end Sys2Proof.Machine
end

section
/-! PROOFS. OUT (R153): what writing bytes and going on answers where the sink has room for them and where
it is unavailable, and so the state OUT answers; besides console and run state it is the link's. -/

namespace Sys2Proof.Machine

/-- Bytes the sink has room for are appended, and the routine goes on. -/
theorem State.writeThen_accepts {s : State} {bs : List Byte} (cont : State → Result)
    (h : s.output.accepts bs.length = true) :
    s.writeThen bs cont = cont (s.setOutput
      { written := s.output.written ++ bs, room := s.output.room.map (· - bs.length) }) := by
  rw [State.writeThen, OutputSink.writeAll_accepts h]

/-- Any byte for an unavailable sink is the I/O fault, and nothing else changes (R194). -/
theorem State.writeThen_unavailable {s : State} (b : Byte) (bs : List Byte) (cont : State → Result)
    (h : s.output.room = some 0) : s.writeThen (b :: bs) cont = .next (s.raiseFault .ioFault) := by
  have hfails : s.output.writeAll (b :: bs) = (false, s.output) := by
    simp [OutputSink.writeAll, OutputSink.write, h]
  rw [State.writeThen, hfails]
  rfl

theorem exec_out (s : State) :
    exec .out s = s.link.writeThen [lowByte (s.reg .r0)] .next := rfl

/-- Settles O43: the sink decides between a write and the fault; all the rest is the link's frame. -/
theorem outWritesLowByte : Obligations.OutWritesLowByte := by
  unfold Obligations.OutWritesLowByte
  refine ⟨fun w hop hvector => ?encoding, fun s hroom => ?written, fun s hroom => ?unavailable⟩
  case encoding =>
    rw [decode_of_trap hop, hvector]
    rfl
  case written =>
    obtain ⟨hlink, hregs, hpc, hcond, hcells, ⟨hinput, -⟩, hcontrol⟩ := s.link_frame
    exact ⟨_, (exec_out s).trans (State.writeThen_accepts _ hroom), rfl, hlink, hregs, hinput, hcond,
      hpc, hcells, hcontrol⟩
  case unavailable =>
    obtain ⟨hlink, hregs, hpc, hcond, hcells, ⟨hinput, houtput⟩, -, hcfg⟩ := s.link_frame
    exact ⟨_, (exec_out s).trans (State.writeThen_unavailable _ _ _ hroom), rfl, houtput, hlink, hregs,
      hinput, hcond, hpc, hcells, hcfg⟩

end Sys2Proof.Machine
end

section
/-! PROOFS. PUTS and PUTSP on any text (R154, R156) are one routine, `State.print`, that differs in the bytes
a word stands for. What it answers of a text that the sink has room for, and of one that it has not, is
said once for any such bytes. -/

namespace Sys2Proof.Machine

/-- What PUTS and PUTSP share: the link, and the loop from the address in R0 on. -/
def State.print (bytesOf : Word → List Byte) (s : State) : Result :=
  stringLoop bytesOf s.link.stringFuel (s.reg .r0) s.link

theorem exec_puts (s : State) : exec .puts s = s.print putsBytes := rfl

theorem exec_putsp (s : State) : exec .putsp s = s.print putspBytes := rfl

/-! ### The bytes of a word -/

theorem flatMap_putsBytes (cs : List Word) :
    cs.flatMap putsBytes = cs.map (fun c => c.extractLsb' 0 8) :=
  List.flatMap_pure_eq_map _ cs

theorem length_flatMap_putsBytes (cs : List Word) : (cs.flatMap putsBytes).length = cs.length := by
  rw [flatMap_putsBytes, List.length_map]

theorem highByte_eq_zero_iff (w : Word) : highByte w = 0 ↔ w.toNat < 256 := by
  have hw := w.isLt
  rw [← BitVec.toNat_inj, highByte, BitVec.extractLsb'_toNat, Nat.shiftRight_eq_div_pow]
  change w.toNat / 256 % 256 = 0 ↔ w.toNat < 256
  omega

/-- The bytes of PUTSP, by the value of the word. -/
theorem putspBytes_eq : putspBytes = fun c : Word =>
    c.extractLsb' 0 8 :: (if c.toNat < 256 then [] else [c.extractLsb' 8 8]) := by
  funext c
  by_cases hc : c.toNat < 256
  · rw [putspBytes, if_pos ((highByte_eq_zero_iff c).mpr hc), if_pos hc]
    rfl
  · rw [putspBytes, if_neg (mt (highByte_eq_zero_iff c).mp hc), if_neg hc]
    rfl

/-! ### The routine -/

/-- What a quiet step after the link leaves of the registers, the flags and the parameters. -/
theorem QuietStep.link_frame {s t : State} (h : QuietStep s.link t) :
    t.reg .r7 = s.pc ∧ SameRegsExcept [.r7] s t ∧ t.cond = s.cond ∧ t.pc = s.pc ∧ t.cfg = s.cfg := by
  obtain ⟨hlink, hregs, -⟩ := s.link_frame
  have hreg : ∀ r, t.reg r = s.link.reg r := fun r => congrArg (·.get r) h.regs
  exact ⟨(hreg .r7).trans hlink, fun r hr => (hreg r).trans (hregs r hr), h.cond, h.pc, h.cfg⟩

/-- Where the sink has room for the bytes of the text, they are written in order, and memory and input
are as the reads leave them. -/
theorem State.print_of_text {f : Word → List Byte} {cs : List Word} {s u : State}
    (htext : ReadsText cs (s.reg .r0) s u) (hroom : s.output.accepts (cs.flatMap f).length = true) :
    ∃ t, s.print f = .next t ∧ t.output.written = s.output.written ++ cs.flatMap f ∧
      t.mem = u.mem ∧ t.input = u.input ∧ t.reg .r7 = s.pc ∧ SameRegsExcept [.r7] s t ∧
      t.cond = s.cond ∧ t.pc = s.pc ∧ SameControl s t := by
  have hprint := stringLoop_of_text htext.link.length_lt_fuel htext.link hroom
  obtain ⟨hlink, hregs, hcond, hpc, hcfg⟩ := (stringLoop_next hprint).1.link_frame
  obtain ⟨-, hrun, -⟩ := htext.quiet
  exact ⟨_, hprint, rfl, rfl, rfl, hlink, hregs, hcond, hpc, hrun, hcfg⟩

/-- Where the sink has less room than the text asks for, what fits is written, and the I/O fault
follows. -/
theorem State.print_short {f : Word → List Byte} {cs : List Word} {s u : State} {n : Nat}
    (htext : ReadsText cs (s.reg .r0) s u) (hroom : s.output.room = some n)
    (hshort : n < (cs.flatMap f).length) :
    ∃ t, s.print f = .next t ∧ t.run = .faulted .ioFault ∧
      t.output.written = s.output.written ++ (cs.flatMap f).take n ∧
      t.reg .r7 = s.pc ∧ SameRegsExcept [.r7] s t ∧ t.pc = s.pc := by
  obtain ⟨v, hwords, -⟩ := htext.link
  obtain ⟨t, hprint, hrun, hwritten⟩ :=
    stringLoop_short (Nat.le_of_lt htext.link.length_lt_fuel) hwords hroom hshort
  obtain ⟨hlink, hregs, -, hpc, -⟩ := (stringLoop_next hprint).1.link_frame
  exact ⟨t, hprint, hrun, hwritten, hlink, hregs, hpc⟩

/-- Settles O59: both routines are `State.print`, each with its own bytes of a word. -/
theorem printRoutinesReadThroughStatus : Obligations.PrintRoutinesReadThroughStatus := by
  unfold Obligations.PrintRoutinesReadThroughStatus
  intro s u cs htext
  rw [← putspBytes_eq, ← flatMap_putsBytes, ← length_flatMap_putsBytes, exec_puts, exec_putsp]
  exact ⟨State.print_of_text htext, State.print_of_text htext, fun n hroom =>
    ⟨State.print_short htext hroom, State.print_short htext hroom⟩⟩

end Sys2Proof.Machine
end

section
/-! PROOFS. RES and RTI (R170, R171): a raised fault changes the run state and nothing else, whatever its
cause. -/

namespace Sys2Proof.Machine

theorem exec_res (s : State) : exec .res s = .next (s.raiseFault .resOpcode) := rfl

theorem exec_rti (s : State) : exec .rti s = .next (s.raiseFault .rtiOpcode) := rfl

theorem State.raiseFault_frame (s : State) (c : FaultCause) :
    (s.raiseFault c).run = .faulted c ∧ SameRegsExcept [] s (s.raiseFault c) ∧
      (s.raiseFault c).pc = s.pc ∧ (s.raiseFault c).cond = s.cond ∧
      SameCellsExcept [] s (s.raiseFault c) ∧ SameConsole s (s.raiseFault c) ∧
      (s.raiseFault c).cfg = s.cfg :=
  ⟨s.raiseFault_run c, fun r _ => s.raiseFault_reg c r, s.raiseFault_pc c, s.raiseFault_cond c,
    fun a _ => s.raiseFault_cell c a, ⟨s.raiseFault_input c, s.raiseFault_output c⟩,
    s.raiseFault_cfg c⟩

/-- Settles O50: the opcode field alone selects RES or RTI, and both only raise their fault. -/
theorem reservedOpcodesFault : Obligations.ReservedOpcodesFault := by
  unfold Obligations.ReservedOpcodesFault
  refine ⟨fun w hop => ?res, fun w hop => ?rti, fun s => ⟨?execRes, ?execRti⟩⟩
  case res => exact (decode_eq_res_iff w).mpr hop
  case rti => exact (decode_eq_rti_iff w).mpr hop
  case execRes => exact ⟨_, exec_res s, s.raiseFault_frame .resOpcode⟩
  case execRti => exact ⟨_, exec_rti s, s.raiseFault_frame .rtiOpcode⟩

end Sys2Proof.Machine
end

section
/-! PROOFS. Loading one image (R57, R220 to R224): the bytes of an image file are read back as the image they
spell, and a load that fits places the image's words and starts the machine at the origin. -/

namespace Sys2Proof.Machine

/-! ### The image file -/

/-- A word as two bytes of an image file, the more significant byte first (R57, R221). -/
def bigEndianBytes (w : Word) : List Byte :=
  [BitVec.ofNat 8 (w.toNat / 256), BitVec.ofNat 8 (w.toNat % 256)]

theorem wordOfBytes_toNat (hi lo : Byte) :
    (wordOfBytes hi lo).toNat = hi.toNat * 256 + lo.toNat := by
  rw [wordOfBytes, BitVec.toNat_append, ← Nat.shiftLeft_add_eq_or_of_lt lo.isLt, Nat.shiftLeft_eq]

theorem wordOfBytes_halves (w : Word) :
    wordOfBytes (BitVec.ofNat 8 (w.toNat / 256)) (BitVec.ofNat 8 (w.toNat % 256)) = w := by
  have hw := w.isLt
  apply BitVec.eq_of_toNat_eq
  rw [wordOfBytes_toNat, BitVec.toNat_ofNat, BitVec.toNat_ofNat]
  omega

theorem wordsOfBytes_bigEndianBytes_append (w : Word) {bs : List Byte} {ws : List Word}
    (h : wordsOfBytes bs = .ok ws) : wordsOfBytes (bigEndianBytes w ++ bs) = .ok (w :: ws) := by
  simp only [bigEndianBytes, List.cons_append, List.nil_append, wordsOfBytes, h, wordOfBytes_halves]

theorem wordsOfBytes_flatMap_bigEndianBytes (ws : List Word) :
    wordsOfBytes (ws.flatMap bigEndianBytes) = .ok ws := by
  induction ws with
  | nil => rfl
  | cons w ws ih => exact wordsOfBytes_bigEndianBytes_append w ih

theorem Image.parse_bigEndianBytes_append (origin : Word) {bs : List Byte} {ws : List Word}
    (h : wordsOfBytes bs = .ok ws) :
    Image.parse (bigEndianBytes origin ++ bs) = .ok { origin := origin, words := ws } := by
  simp only [bigEndianBytes, List.cons_append, List.nil_append, Image.parse, h, wordOfBytes_halves]

/-- Settles O15: the origin's two bytes are taken off, and the words' bytes are read back by induction on
the words. -/
theorem imageFileBigEndian : Obligations.ImageFileBigEndian := by
  unfold Obligations.ImageFileBigEndian
  intro origin ws
  exact Image.parse_bigEndianBytes_append origin (wordsOfBytes_flatMap_bigEndianBytes ws)

/-! ### The start of a run -/

theorem State.boot_of_fits {g : Image} (cfg : Config) (m : Memory) (inp : InputSource)
    (room : Option Nat) (h : g.origin.toNat + g.words.length ≤ 65536) :
    State.boot cfg m g inp room =
      .ok (State.start cfg g.origin (m.place g.origin.toNat g.words) inp room) :=
  if_pos (decide_eq_true h)

/-- Addresses do not wrap around within an image that fits (R222). -/
theorem Image.toNat_address {g : Image} {k : Nat} (h : g.origin.toNat + g.words.length ≤ 65536)
    (hk : k < g.words.length) : (g.origin + BitVec.ofNat 16 k).toNat = g.origin.toNat + k := by
  rw [BitVec.toNat_add, BitVec.toNat_ofNat]
  omega

/-- Settles O13: the machine starts over the placed image, and the laws of placing give its cells. -/
theorem bootState : Obligations.BootState := by
  unfold Obligations.BootState
  intro cfg m g inp room hfits
  refine ⟨_, State.boot_of_fits cfg m inp room hfits, State.start_reg _ _ _ _ _, rfl, rfl, rfl,
    fun k hk => ?loaded, fun a ha => ?untouched, rfl, rfl, rfl, rfl⟩
  case loaded =>
    rw [State.cell_eq, Image.toNat_address hfits hk]
    exact Memory.read_place hk
  case untouched => exact Memory.read_place_other ha

end Sys2Proof.Machine
end

section
/-! PROOFS. The formats of R83 as fields of a word, given once for every instruction: a word decodes to a
well-formed instruction exactly if it holds the instruction's fields, the canonical word holds them, and the
used bits of an instruction are the bits of its fields. -/

namespace Sys2Proof

/-! ### Words that agree on some bits -/

theorem and_eq_and_iff (m w w' : Word) :
    w' &&& m = w &&& m ↔ ∀ k, m.getLsbD k = true → w'.getLsbD k = w.getLsbD k := by
  constructor
  · intro h k hk
    simpa only [BitVec.getLsbD_and, hk, Bool.and_true] using congrArg (·.getLsbD k) h
  · intro h
    apply BitVec.eq_of_getLsbD_eq
    intro k _
    rw [BitVec.getLsbD_and, BitVec.getLsbD_and]
    cases hk : m.getLsbD k with
    | false => rw [Bool.and_false, Bool.and_false]
    | true => rw [h k hk]

theorem and_or_eq_and_or_iff (m n w w' : Word) :
    w' &&& (m ||| n) = w &&& (m ||| n) ↔ w' &&& m = w &&& m ∧ w' &&& n = w &&& n := by
  simp only [and_eq_and_iff, BitVec.getLsbD_or, Bool.or_eq_true, or_imp, forall_and]

/-! ### Fields of a word -/

/-- A field of a word, bits `[lo + len - 1 : lo]`, with the value it holds. -/
structure Field where
  lo : Nat
  len : Nat
  value : BitVec len

/-- The word holds the field's value. -/
def Field.HeldBy (f : Field) (w : Word) : Prop := w.extractLsb' f.lo f.len = f.value

/-- The bits of the field. -/
def Field.mask (f : Field) : Word := (BitVec.allOnes f.len).setWidth 16 <<< f.lo

/-- The bits of several fields. -/
def Field.maskAll : List Field → Word
  | [] => 0
  | f :: fs => f.mask ||| Field.maskAll fs

theorem Field.getLsbD_mask (f : Field) (k : Nat) :
    f.mask.getLsbD k = true ↔ k < 16 ∧ f.lo ≤ k ∧ k - f.lo < f.len := by
  simp [Field.mask]
  omega

/-- Words agree on the bits of a field exactly if they hold the same value in it. -/
theorem Field.agree_mask_iff (f : Field) (w w' : Word) :
    w' &&& f.mask = w &&& f.mask ↔ w'.extractLsb' f.lo f.len = w.extractLsb' f.lo f.len := by
  rw [and_eq_and_iff]
  constructor
  · intro h
    apply BitVec.eq_of_getLsbD_eq
    intro k hk
    rw [BitVec.getLsbD_extractLsb', BitVec.getLsbD_extractLsb']
    by_cases hword : f.lo + k < 16
    · rw [h _ ((f.getLsbD_mask _).mpr ⟨hword, by omega⟩)]
    · rw [BitVec.getLsbD_of_ge w' _ (by omega), BitVec.getLsbD_of_ge w _ (by omega)]
  · intro h k hk
    obtain ⟨-, hlo, hlen⟩ := (f.getLsbD_mask k).mp hk
    simpa only [BitVec.getLsbD_extractLsb', hlen, decide_true, Bool.true_and,
      Nat.add_sub_cancel' hlo] using congrArg (·.getLsbD (k - f.lo)) h

/-- A word that holds some fields agrees on their bits with exactly those words that hold them too. -/
theorem Field.agree_maskAll_iff {fs : List Field} {w : Word} (h : ∀ f ∈ fs, f.HeldBy w) (w' : Word) :
    w' &&& Field.maskAll fs = w &&& Field.maskAll fs ↔ ∀ f ∈ fs, f.HeldBy w' := by
  induction fs with
  | nil => simp [Field.maskAll]
  | cons f fs ih =>
    obtain ⟨hf, hfs⟩ := List.forall_mem_cons.mp h
    rw [Field.maskAll, and_or_eq_and_or_iff, Field.agree_mask_iff, ih hfs, List.forall_mem_cons, hf]
    rfl

/-- The upper part of a concatenation holds its own fields, further up. -/
theorem extractLsb'_append_of_high {n m lo len : Nat} {x : BitVec n} {y : BitVec m} {v : BitVec len}
    (h : x.extractLsb' lo len = v) : (x ++ y).extractLsb' (lo + m) len = v := by
  rw [BitVec.extractLsb'_append_eq_of_le (Nat.le_add_left m lo), Nat.add_sub_cancel, h]

theorem extractLsb'_one (w : Word) (k : Nat) : w.extractLsb' k 1 = BitVec.ofBool (w.getLsbD k) := by
  apply BitVec.eq_of_getLsbD_eq
  intro j hj
  obtain rfl : j = 0 := by omega
  simp

theorem ofBool_inj : ∀ {a b : Bool}, BitVec.ofBool a = BitVec.ofBool b ↔ a = b := by
  decide

theorem extractLsb'_one_eq_iff (w : Word) (k : Nat) (b : Bool) :
    w.extractLsb' k 1 = BitVec.ofBool b ↔ w.getLsbD k = b := by
  rw [extractLsb'_one, ofBool_inj]

/-! ### The fields of an instruction -/

/-- The vector a TRAP carries (R151). -/
def Instr.trapVector : Instr → BitVec 8
  | .getc => 0x20
  | .out => 0x21
  | .puts => 0x22
  | .inChar => 0x23
  | .putsp => 0x24
  | .halt => 0x25
  | .trapUnrecognised v => v
  | _ => 0

/-- The fields below the opcode that the handler of an instruction reads (R83 to R85). -/
def Instr.operands : Instr → List Field
  | .br n z p off => [⟨11, 1, .ofBool n⟩, ⟨10, 1, .ofBool z⟩, ⟨9, 1, .ofBool p⟩, ⟨0, 9, off⟩]
  | .addReg dr sr1 sr2 | .andReg dr sr1 sr2 =>
    [⟨9, 3, dr.toBits⟩, ⟨6, 3, sr1.toBits⟩, ⟨5, 1, .ofBool false⟩, ⟨0, 3, sr2.toBits⟩]
  | .addImm dr sr1 imm | .andImm dr sr1 imm =>
    [⟨9, 3, dr.toBits⟩, ⟨6, 3, sr1.toBits⟩, ⟨5, 1, .ofBool true⟩, ⟨0, 5, imm⟩]
  | .ld r off | .st r off | .ldi r off | .sti r off | .lea r off => [⟨9, 3, r.toBits⟩, ⟨0, 9, off⟩]
  | .jsr off => [⟨11, 1, .ofBool true⟩, ⟨0, 11, off⟩]
  | .jsrr base => [⟨11, 1, .ofBool false⟩, ⟨6, 3, base.toBits⟩]
  | .ldr r base off | .str r base off => [⟨9, 3, r.toBits⟩, ⟨6, 3, base.toBits⟩, ⟨0, 6, off⟩]
  | .notReg dr sr => [⟨9, 3, dr.toBits⟩, ⟨6, 3, sr.toBits⟩]
  | .jmp base => [⟨6, 3, base.toBits⟩]
  | .rti | .res => []
  | trap => [⟨0, 8, trap.trapVector⟩]

/-- The fields of an instruction: its opcode and its operands. -/
def Instr.fields (i : Instr) : List Field := ⟨12, 4, Laws.opcodeNumber i⟩ :: i.operands

/-- The used bits of an instruction are those of its fields (R86). -/
theorem Instr.usedBits_eq_maskAll (i : Instr) : i.usedBits = Field.maskAll i.fields := by
  cases i with
  | _ => simp [Instr.usedBits, Instr.fields, Instr.operands, Field.maskAll, Field.mask]

/-- The canonical word holds the opcode number. -/
theorem opcodeField_encode (i : Instr) : (encode i).extractLsb' 12 4 = Laws.opcodeNumber i := by
  cases i with
  | _ =>
    repeat apply extractLsb'_append_of_high
    rfl

/-- The canonical word of an instruction holds its fields (R83, R91). -/
theorem Instr.fields_heldBy_encode (i : Instr) : ∀ f ∈ i.fields, f.HeldBy (encode i) := by
  rw [Instr.fields, List.forall_mem_cons]
  refine ⟨opcodeField_encode i, ?_⟩
  cases i with
  | _ =>
    simp only [Instr.operands, List.forall_mem_cons, List.not_mem_nil, false_implies, implies_true,
      and_true]
    and_intros
    all_goals
      repeat apply extractLsb'_append_of_high
      exact BitVec.extractLsb'_append_eq_right

/-! ### What a word decodes to -/

theorem Reg.toBits_inj {r q : Reg} : r.toBits = q.toBits ↔ r = q :=
  ⟨Reg.toBits_injective, congrArg Reg.toBits⟩

theorem regA_eq_iff (w : Word) (r : Reg) : regA w = r ↔ w.extractLsb' 9 3 = r.toBits := by
  rw [← toBits_regA, Reg.toBits_inj]

theorem regB_eq_iff (w : Word) (r : Reg) : regB w = r ↔ w.extractLsb' 6 3 = r.toBits := by
  rw [← toBits_regB, Reg.toBits_inj]

theorem regC_eq_iff (w : Word) (r : Reg) : regC w = r ↔ w.extractLsb' 0 3 = r.toBits := by
  rw [← toBits_regC, Reg.toBits_inj]

theorem trapVector_decodeTrap (v : BitVec 8) : (decodeTrap v).trapVector = v := by
  revert v
  decide

theorem decodeTrap_trapVector {i : Instr} (h : i.isTrap = true) (hwf : i.wf = true) :
    decodeTrap i.trapVector = i := by
  cases i with
  | trapUnrecognised v => exact decodeTrap_of_not_recognised ((Bool.not_eq_true' _).mp hwf)
  | getc | out | puts | inChar | putsp | halt => rfl
  | _ => cases h

theorem decodeTrap_eq_iff {i : Instr} (h : i.isTrap = true) (hwf : i.wf = true) {v : BitVec 8} :
    decodeTrap v = i ↔ v = i.trapVector := by
  constructor
  · rintro rfl
    exact (trapVector_decodeTrap v).symm
  · rintro rfl
    exact decodeTrap_trapVector h hwf

/-- Once the opcode is right, the operands decide. -/
theorem decode_eq_iff_of_opcode {i : Instr} {w : Word}
    (h : w.extractLsb' 12 4 = Laws.opcodeNumber i → (decode w = i ↔ ∀ f ∈ i.operands, f.HeldBy w)) :
    decode w = i ↔ ∀ f ∈ i.fields, f.HeldBy w := by
  rw [Instr.fields, List.forall_mem_cons]
  exact ⟨fun hi => ⟨opcodeField_of_decode_eq hi, (h (opcodeField_of_decode_eq hi)).mp hi⟩,
    fun ⟨hop, hf⟩ => (h hop).mpr hf⟩

/-- R87 for all instructions at once: a word decodes to the well-formed instruction whose fields it
holds. -/
theorem decode_eq_iff {i : Instr} (hwf : i.wf = true) (w : Word) :
    decode w = i ↔ ∀ f ∈ i.fields, f.HeldBy w := by
  apply decode_eq_iff_of_opcode
  intro hop
  cases i with
  | getc | out | puts | inChar | putsp | halt | trapUnrecognised =>
    rw [decode_of_trap hop, decodeTrap_eq_iff rfl hwf]
    simp [Instr.operands, Field.HeldBy, Instr.trapVector]
  | addReg | addImm | andReg | andImm =>
    rw [decode, opcode_of_field hop]
    simp only [Laws.opcodeNumber, Instr.operands, Field.HeldBy, List.forall_mem_cons,
      extractLsb'_one_eq_iff]
    cases w.getLsbD 5 with
    | _ => simp [Opcode.ofBits, regA_eq_iff, regB_eq_iff, regC_eq_iff, imm5]
  | jsr | jsrr =>
    rw [decode_of_jsr hop]
    simp only [Instr.operands, Field.HeldBy, List.forall_mem_cons, extractLsb'_one_eq_iff]
    cases w.getLsbD 11 with
    | _ => simp [regB_eq_iff, pcOffset11]
  | br =>
    rw [decode_of_br hop]
    simp [Instr.operands, Field.HeldBy, extractLsb'_one_eq_iff, pcOffset9]
  | ld | st | ldi | sti | lea | ldr | str | notReg | jmp | rti | res =>
    rw [decode, opcode_of_field hop]
    simp [Laws.opcodeNumber, Opcode.ofBits, Instr.operands, Field.HeldBy, regA_eq_iff, regB_eq_iff,
      pcOffset9, offset6]

/-- Settles O2: the canonical word holds the fields of its instruction. -/
theorem decodeEncodeRoundTrip : Obligations.DecodeEncodeRoundTrip := by
  unfold Obligations.DecodeEncodeRoundTrip
  exact fun i hwf => (decode_eq_iff hwf _).mpr i.fields_heldBy_encode

/-- The last seven rows of the table are told apart by the trap vector. -/
theorem decodeCase_decodeTrap {w : Word} (h : w.extractLsb' 12 4 = 0xF) :
    (decodeTrap (w.extractLsb' 0 8)).decodeCase = r87Case w := by
  simp only [r87Case, h, BitVec.reduceToNat]
  generalize w.extractLsb' 0 8 = v
  revert v
  decide

/-- Settles O4, opcode by opcode, with the mode bit or the trap vector where the table asks for it. -/
theorem decodeFollowsTheTable : Obligations.DecodeFollowsTheTable := by
  unfold Obligations.DecodeFollowsTheTable
  intro w
  cases hop : opcode w with
  | trap =>
    have htrap : w.extractLsb' 12 4 = 0xF := by rw [← opcode_number, hop, Opcode.number]
    rw [decode_of_trap htrap]
    exact ⟨decodeCase_decodeTrap htrap, decodeTrap_wf _⟩
  | add | and =>
    rw [decode, r87Case, ← opcode_number, hop]
    cases w.getLsbD 5 with
    | _ => exact ⟨rfl, rfl⟩
  | jsr =>
    rw [decode, r87Case, ← opcode_number, hop]
    cases w.getLsbD 11 with
    | _ => exact ⟨rfl, rfl⟩
  | br | ld | st | ldr | str | rti | not | ldi | sti | jmp | res | lea =>
    rw [decode, r87Case, ← opcode_number, hop]
    exact ⟨rfl, rfl⟩

/-- Settles O3: the words that decode to the instruction of `w` are those that hold its fields, and these
are the words that agree with `w` on the bits of the fields. -/
theorem decodeIgnoresUnusedBits : Obligations.DecodeIgnoresUnusedBits := by
  unfold Obligations.DecodeIgnoresUnusedBits
  intro w w'
  obtain ⟨-, hwf⟩ := decodeFollowsTheTable w
  have hw : ∀ f ∈ (decode w).fields, f.HeldBy w := (decode_eq_iff hwf w).mp rfl
  rw [decode_eq_iff hwf, Instr.usedBits_eq_maskAll, Field.agree_maskAll_iff hw]

end Sys2Proof
end

section
/-! PROOFS. What an instruction may do to the state, said once for the invariant, the register and flag
tables (R22, R28) and the use of the console (R35): a preorder that every operation of the machine keeps
to, and so every instruction and every step. -/

namespace Sys2Proof.Machine

/-- What instruction `i` may do: write the registers and the flags the tables give it (R22, R28), write
memory canonically, append to the output, and take from the front of the input. -/
structure MayDo (i : Instr) (s t : State) : Prop where
  regs : SameRegsExcept i.writes s t
  cond : i.setsFlags = false → t.cond = s.cond
  wf : s.mem.wf = true → t.mem.wf = true
  cfg : t.cfg = s.cfg
  written : ∃ out, t.output.written = s.output.written ++ out
  input : s.input.Later t.input

namespace MayDo

/-! ### The preorder -/

theorem refl (i : Instr) (s : State) : MayDo i s s :=
  ⟨fun _ _ => rfl, fun _ => rfl, id, rfl, ⟨[], (List.append_nil _).symm⟩, .refl _⟩

theorem trans {i : Instr} {s t u : State} (h : MayDo i s t) (k : MayDo i t u) : MayDo i s u := by
  obtain ⟨out, hout⟩ := h.written
  obtain ⟨out', hout'⟩ := k.written
  exact ⟨fun r hr => (k.regs r hr).trans (h.regs r hr), fun hf => (k.cond hf).trans (h.cond hf),
    k.wf ∘ h.wf, k.cfg.trans h.cfg, ⟨out ++ out', by rw [hout', hout, List.append_assoc]⟩,
    h.input.trans k.input⟩

/-! ### The operations -/

theorem of_quiet {i : Instr} {s t : State} (h : QuietStep s t) : MayDo i s t :=
  ⟨fun r _ => congrArg (·.get r) h.regs, fun _ => h.cond, h.wf, h.cfg, h.written, h.input⟩

theorem setReg {i : Instr} {r : Reg} (h : r ∈ i.writes) (s : State) (v : Word) :
    MayDo i s (s.setReg r v) :=
  { refl i s with
    regs := fun _ hq => s.reg_setReg_other v fun e => hq (e ▸ h) }

theorem link {i : Instr} (h : .r7 ∈ i.writes) (s : State) : MayDo i s s.link := setReg h s s.pc

theorem setcc {i : Instr} (h : i.setsFlags = true) (s : State) (v : Word) : MayDo i s (s.setcc v) :=
  { refl i s with
    cond := fun hf => nomatch h.symm.trans hf }

theorem writeResult {i : Instr} {dr : Reg} (hr : dr ∈ i.writes) (hf : i.setsFlags = true) (s : State)
    (v : Word) : MayDo i s (s.writeResult dr v) :=
  (setReg hr s v).trans (setcc hf _ v)

theorem setPc (i : Instr) (s : State) (v : Word) : MayDo i s (s.setPc v) := { refl i s with }

theorem enterHalted (i : Instr) (s : State) : MayDo i s s.enterHalted := { refl i s with }

theorem raiseFault (i : Instr) (s : State) (c : FaultCause) : MayDo i s (s.raiseFault c) :=
  of_quiet (.raiseFault s c)

theorem memRead (i : Instr) (s : State) (a : Word) : MayDo i s (s.memRead a).2 :=
  of_quiet (s.memRead_quiet a)

theorem memWrite (i : Instr) (s : State) (a v : Word) : MayDo i s (s.memWrite a v) :=
  { refl i s with
    wf := State.wf_setCell a v }

theorem loadFrom {i : Instr} {dr : Reg} (hr : dr ∈ i.writes) (hf : i.setsFlags = true) (s : State)
    (ea : Word) : MayDo i s (s.loadFrom dr ea) :=
  (memRead i s ea).trans (writeResult hr hf _ _)

end MayDo

/-! ### Instructions and steps -/

/-- An instruction does what the tables allow it, and nothing else to registers, flags, memory's form,
parameters and console. -/
theorem exec_mayDo {i : Instr} {s t : State} (h : exec i s = .next t) : MayDo i s t := by
  cases i with
  | addReg dr | addImm dr | andReg dr | andImm dr | notReg dr | lea dr =>
    cases h
    exact .writeResult (List.mem_singleton_self dr) rfl s _
  | ld dr | ldr dr =>
    cases h
    exact .loadFrom (List.mem_singleton_self dr) rfl s _
  | ldi dr =>
    cases h
    exact (MayDo.memRead _ s _).trans (.loadFrom (List.mem_singleton_self dr) rfl _ _)
  | st | str =>
    cases h
    exact .memWrite _ s _ _
  | sti =>
    cases h
    exact (MayDo.memRead _ s _).trans (.memWrite _ _ _ _)
  | br n z p off =>
    rw [exec_br] at h
    cases h
    exact .setPc _ s _
  | jmp =>
    cases h
    exact .setPc _ s _
  | jsr | jsrr =>
    cases h
    exact (MayDo.link (List.mem_singleton_self _) s).trans (.setPc _ _ _)
  | res | rti =>
    cases h
    exact .raiseFault _ s _
  | trapUnrecognised =>
    cases h
    exact (MayDo.link (List.mem_singleton_self _) s).trans (.raiseFault _ _ _)
  | halt =>
    cases h
    exact (MayDo.link (List.mem_singleton_self _) s).trans (.enterHalted _ _)
  | getc =>
    have hlink : MayDo .getc s s.link := .link (by decide) s
    obtain ⟨b, -, rfl⟩ | ⟨-, -, rfl⟩ := execGetc_next h
    · exact hlink.trans ((MayDo.of_quiet (.setInput _ (.drop _))).trans (.setReg (by decide) _ _))
    · exact hlink.trans (.raiseFault _ _ _)
  | out =>
    obtain ⟨hquiet, -, -⟩ := execOut_next h
    exact (MayDo.link (List.mem_singleton_self _) s).trans (.of_quiet hquiet)
  | puts | putsp =>
    exact (MayDo.link (List.mem_singleton_self _) s).trans (.of_quiet (stringLoop_next h).1)
  | inChar =>
    have hlink : MayDo .inChar s s.link := .link (by decide) s
    obtain ⟨u, hquiet, -, ⟨rfl, -⟩ | ⟨b, rfl, -⟩⟩ := execInChar_next h
    · exact hlink.trans (.of_quiet hquiet)
    · exact hlink.trans ((MayDo.of_quiet hquiet).trans (.setReg (by decide) _ _))

/-- A step does what the tables allow the instruction it runs; the fetch adds a read and the increment. -/
theorem step_mayDo {s t : State} (h : step s = .next t) : ∃ i, MayDo i s t := by
  obtain ⟨-, hexec⟩ := step_next h
  rw [State.fetch_state] at hexec
  exact ⟨_, (MayDo.memRead _ s s.pc).trans ((MayDo.setPc _ _ _).trans (exec_mayDo hexec))⟩

/-- Settles O18: a step keeps the canonical form of memory and the parameters. -/
theorem stepKeepsInvariant : Obligations.StepKeepsInvariant := by
  unfold Obligations.StepKeepsInvariant
  intro s t hinv hstep
  obtain ⟨hmem, hcfg⟩ := hinv
  obtain ⟨i, hdo⟩ := step_mayDo hstep
  exact ⟨⟨hdo.wf hmem, hdo.cfg.symm ▸ hcfg⟩, hdo.cfg⟩

/-- Settles O57: a step appends to the output and takes from the front of the input. -/
theorem consoleUsedInOrder : Obligations.ConsoleUsedInOrder := by
  unfold Obligations.ConsoleUsedInOrder
  intro s t hstep
  obtain ⟨i, hdo⟩ := step_mayDo hstep
  exact ⟨hdo.written, hdo.input⟩

/-- Settles O54: the registers an instruction may write are those of the table. -/
theorem onlyNamedRegistersWritten : Obligations.OnlyNamedRegistersWritten := by
  unfold Obligations.OnlyNamedRegistersWritten
  exact fun _ _ _ h => (exec_mayDo h).regs

/-- An instruction that sets the flags ends by writing its one destination register. -/
theorem exec_of_setsFlags {i : Instr} (h : i.setsFlags = true) (s : State) :
    ∃ (u : State) (dr : Reg) (v : Word), i.writes = [dr] ∧ exec i s = .next (u.writeResult dr v) := by
  cases i with
  | addReg | addImm | andReg | andImm | notReg | ld | ldi | ldr | lea => exact ⟨_, _, _, rfl, rfl⟩
  | _ => cases h

/-- Settles O55: outside the seven the flags may not change, and the seven set them from the word they
write. -/
theorem onlyDesignatedOpcodesSetFlags : Obligations.OnlyDesignatedOpcodesSetFlags := by
  unfold Obligations.OnlyDesignatedOpcodesSetFlags
  intro i s t h
  refine ⟨(exec_mayDo h).cond, fun hf => ?sets⟩
  case sets =>
    obtain ⟨u, dr, v, hwrites, hexec⟩ := exec_of_setsFlags hf s
    obtain rfl : u.writeResult dr v = t := Host.Outcome.next.inj (hexec.symm.trans h)
    exact ⟨dr, hwrites, (u.writeResult_frame dr v).1⟩

end Sys2Proof.Machine
end

section
/-! PROOFS. What every trap routine leaves alone (R159), and which instruction ends the run, and how (R30,
R190). -/

namespace Sys2Proof.Machine

/-- Where memory is the same, so is every cell. -/
theorem SameCellsExcept.of_mem_eq {s t : State} (h : t.mem = s.mem) : SameCellsExcept [] s t :=
  fun a _ => congrArg (·.read a.toNat) h

/-- Every trap routine that completes is the link and a quiet step, which only the string routines take
memory through; GETC and IN may then write R0. -/
theorem exec_trap_next {i : Instr} (hi : i.isTrap = true) {s t : State} (h : exec i s = .next t) :
    ∃ u, QuietStep s.link u ∧ (i ≠ .puts → i ≠ .putsp → u.mem = s.mem) ∧
      (t = u ∨ (i = .getc ∨ i = .inChar) ∧ ∃ v, t = u.setReg .r0 v) := by
  cases i with
  | getc =>
    obtain ⟨b, -, rfl⟩ | ⟨-, -, rfl⟩ := execGetc_next h
    · exact ⟨_, .setInput _ (.drop _), fun _ _ => rfl, .inr ⟨.inl rfl, _, rfl⟩⟩
    · exact ⟨_, .raiseFault _ _, fun _ _ => rfl, .inl rfl⟩
  | out =>
    obtain ⟨hquiet, hmem, -⟩ := execOut_next h
    exact ⟨t, hquiet, fun _ _ => hmem, .inl rfl⟩
  | puts => exact ⟨t, (stringLoop_next h).1, fun hne => absurd rfl hne, .inl rfl⟩
  | putsp => exact ⟨t, (stringLoop_next h).1, fun _ hne => absurd rfl hne, .inl rfl⟩
  | inChar =>
    obtain ⟨u, hquiet, hmem, ⟨rfl, -⟩ | ⟨b, rfl, -⟩⟩ := execInChar_next h
    · exact ⟨t, hquiet, fun _ _ => hmem, .inl rfl⟩
    · exact ⟨u, hquiet, fun _ _ => hmem, .inr ⟨.inr rfl, _, rfl⟩⟩
  | halt =>
    cases h
    exact ⟨s.link.enterHalted, { QuietStep.refl s.link with }, fun _ _ => rfl, .inl rfl⟩
  | trapUnrecognised v =>
    cases h
    exact ⟨_, .raiseFault _ _, fun _ _ => rfl, .inl rfl⟩
  | _ => cases hi

/-- Settles O51: the link and a quiet step leave these things alone, and so does writing R0 after it. -/
theorem trapRoutinesLeaveAlone : Obligations.TrapRoutinesLeaveAlone := by
  unfold Obligations.TrapRoutinesLeaveAlone
  intro i s t hi h
  obtain ⟨u, hquiet, hmem, ht⟩ := exec_trap_next hi h
  obtain ⟨hlink, hregs, hcond, hpc, -⟩ := hquiet.link_frame
  have hcells : SameCellsExcept [s.cfg.kbsrAddr, s.cfg.kbdrAddr] s u := hquiet.cells
  have hnone : i ≠ .puts → i ≠ .putsp → SameCellsExcept [] s u :=
    fun h1 h2 => .of_mem_eq (hmem h1 h2)
  obtain rfl | ⟨hreader, v, rfl⟩ := ht
  case inl =>
    exact ⟨hlink, fun r hr => hregs r fun h7 => hr (List.mem_cons_of_mem _ h7), hcond, hpc, hcells, hnone,
      fun _ _ => hregs .r0 (by decide)⟩
  case inr =>
    refine ⟨(u.reg_setReg_other v (by decide)).trans hlink, fun r hr => ?regs, hcond, hpc, hcells, hnone,
      fun h1 h2 => ?reader⟩
    case regs =>
      obtain ⟨hr0, hr7⟩ := List.ne_and_not_mem_of_not_mem_cons hr
      exact (u.reg_setReg_other v hr0).trans (hregs r hr7)
    case reader => exact absurd hreader (not_or.mpr ⟨h1, h2⟩)

/-- Settles O10: an instruction that does not use the console makes of `RUNNING` what its kind says, and a
console routine goes on or ends in the I/O fault. -/
theorem runStateTransitions : Obligations.RunStateTransitions := by
  unfold Obligations.RunStateTransitions
  intro i s t hs h
  cases hconsole : i.usesConsole with
  | false =>
    obtain ⟨u, hu, hrun⟩ := exec_completes hconsole s
    obtain rfl : u = t := Host.Outcome.next.inj (hu.symm.trans h)
    rw [hrun, hs]
    cases i with
    | getc | out | puts | inChar | putsp => cases hconsole
    | _ => simp [Instr.runAfter]
  | true =>
    have hrun : t.run = .running ∨ t.run = .faulted .ioFault := hs ▸ exec_console_run hconsole h
    cases i with
    | getc | out | puts | inChar | putsp =>
      obtain hrun | hrun := hrun
      · simp [hrun]
      · simp [hrun]
    | _ => cases hconsole

end Sys2Proof.Machine
end

section
/-! PROOFS. The keyboard poll (R51, R52, R205) and the cycle (R55, R65, R175, R177): the state a read of
`KBSR_ADDR` leaves is given once for each answer of the host, and a step of the running machine once in
terms of `memRead`. -/

namespace Sys2Proof.Machine

/-! ### The poll -/

/-- The state a poll leaves that finds the byte `b`: KBSR says so, KBDR holds it, and it is consumed. -/
def State.polledByte (s : State) (b : Byte) : State :=
  ((s.setInput s.input.dropPoll.drop).setCell s.cfg.kbsrAddr 0x8000).setCell s.cfg.kbdrAddr (zext8 b)

/-- The state a poll leaves that finds none. -/
def State.polledNone (s : State) : State :=
  (s.setInput s.input.dropPoll).setCell s.cfg.kbsrAddr 0x0000

theorem Config.wf_iff (c : Config) : c.wf = true ↔ c.kbsrAddr ≠ c.kbdrAddr := bne_iff_ne

theorem InputSource.next_of_ready {i : InputSource} (h : i.ready = true) : ∃ b, i.next = some b :=
  Option.isSome_iff_exists.mp ((Bool.and_eq_true _ _).mp h).2

theorem State.memRead_kbsr (s : State) :
    s.memRead s.cfg.kbsrAddr = (s.pollKeyboard.cell s.cfg.kbsrAddr, s.pollKeyboard) := if_pos rfl

/-- A read of `KBSR_ADDR` with a byte ready. -/
theorem State.memRead_of_ready {s : State} {b : Byte} (hwf : s.cfg.wf = true)
    (hready : s.input.ready = true) (hb : s.input.next = some b) :
    s.memRead s.cfg.kbsrAddr = (0x8000, s.polledByte b) := by
  have hpoll : s.pollKeyboard = s.polledByte b := by
    simp [State.pollKeyboard, InputSource.poll, hready, hb, State.polledByte]
  rw [State.memRead_kbsr, hpoll, State.polledByte,
    State.cell_setCell_other _ _ ((Config.wf_iff _).mp hwf), State.cell_setCell_same]

/-- A read of `KBSR_ADDR` with no byte ready. -/
theorem State.memRead_of_not_ready {s : State} (hready : s.input.ready = false) :
    s.memRead s.cfg.kbsrAddr = (0x0000, s.polledNone) := by
  have hpoll : s.pollKeyboard = s.polledNone := by
    simp [State.pollKeyboard, InputSource.poll, hready, State.polledNone]
  rw [State.memRead_kbsr, hpoll, State.polledNone, State.cell_setCell_same]

/-- What the poll that finds a byte changes: the device cells. -/
theorem State.polledByte_cells {s : State} (hwf : s.cfg.wf = true) (b : Byte) :
    (s.polledByte b).cell s.cfg.kbsrAddr = 0x8000 ∧ (s.polledByte b).cell s.cfg.kbdrAddr = zext8 b ∧
      SameCellsExcept [s.cfg.kbsrAddr, s.cfg.kbdrAddr] s (s.polledByte b) := by
  refine ⟨?kbsr, State.cell_setCell_same _ _ _, fun a ha => ?others⟩
  case kbsr =>
    rw [State.polledByte, State.cell_setCell_other _ _ ((Config.wf_iff _).mp hwf),
      State.cell_setCell_same]
  case others =>
    obtain ⟨hkbsr, hrest⟩ := List.ne_and_not_mem_of_not_mem_cons ha
    rw [State.polledByte, State.cell_setCell_other _ _ (List.ne_of_not_mem_cons hrest),
      State.cell_setCell_other _ _ hkbsr, State.setInput_cell]

/-- What the poll that finds no byte changes: the status cell. -/
theorem State.polledNone_cells (s : State) :
    s.polledNone.cell s.cfg.kbsrAddr = 0x0000 ∧ SameCellsExcept [s.cfg.kbsrAddr] s s.polledNone :=
  ⟨State.cell_setCell_same _ _ _, fun _ ha => State.cell_setCell_other _ _ (List.ne_of_not_mem_cons ha)⟩

theorem zext8_toNat (b : Byte) : (zext8 b).toNat = b.toNat :=
  BitVec.toNat_setWidth_of_le (by decide)

/-- Settles O20, by the host's answer. -/
theorem memReadStatusPolls : Obligations.MemReadStatusPolls := by
  unfold Obligations.MemReadStatusPolls
  intro s hwf v t
  refine ⟨fun hready => ?ready, fun hready => ?notReady, s.memRead_regs _, s.memRead_pc _,
    s.memRead_cond _, s.memRead_run _, s.memRead_output _, s.memRead_cfg _⟩
  case ready =>
    obtain ⟨b, hb⟩ := InputSource.next_of_ready hready
    obtain ⟨hkbsr, hkbdr, hcells⟩ := State.polledByte_cells hwf b
    obtain ⟨hv, ht⟩ : v = 0x8000 ∧ t = s.polledByte b :=
      Prod.mk.inj (State.memRead_of_ready hwf hready hb)
    rw [ht]
    exact ⟨hv, hkbsr, ⟨b, hb, by rw [hkbdr, zext8_toNat]⟩, rfl, hcells⟩
  case notReady =>
    obtain ⟨hkbsr, hcells⟩ := s.polledNone_cells
    obtain ⟨hv, ht⟩ : v = 0x0000 ∧ t = s.polledNone :=
      Prod.mk.inj (State.memRead_of_not_ready hready)
    rw [ht]
    exact ⟨hv, hkbsr, rfl, hcells⟩

/-- Settles O21: the second poll finds the byte after the one the first took. -/
theorem twoPollsConsumeTwoBytes : Obligations.TwoPollsConsumeTwoBytes := by
  unfold Obligations.TwoPollsConsumeTwoBytes
  intro s b c rest hwf hbytes hanswer hanswer'
  have hb : s.input.next = some b := InputSource.next_of_bytes_cons hbytes
  have hready : s.input.ready = true := by rw [InputSource.ready, hanswer, hb]; rfl
  have hfirst : s.memRead s.cfg.kbsrAddr = (0x8000, s.polledByte b) :=
    State.memRead_of_ready hwf hready hb
  have hbytes' : (s.polledByte b).input.bytes = c :: rest := by
    change s.input.dropPoll.drop.bytes = c :: rest
    rw [InputSource.drop_bytes, InputSource.dropPoll_bytes, hbytes, List.tail_cons]
  have hc : (s.polledByte b).input.next = some c := InputSource.next_of_bytes_cons hbytes'
  have hready' : (s.polledByte b).input.ready = true := by
    have : (s.polledByte b).input.answer = true := by
      rw [← hanswer']
      change s.input.dropPoll.drop.answer = s.input.dropPoll.answer
      simp [InputSource.answer]
    rw [InputSource.ready, this, hc]
    rfl
  have hsecond : (s.polledByte b).memRead s.cfg.kbsrAddr = (0x8000, (s.polledByte b).polledByte c) :=
    State.memRead_of_ready (s := s.polledByte b) hwf hready' hc
  rw [hfirst, hsecond]
  refine ⟨?bytes, ((s.polledByte b).polledByte_cells hwf c).2.1, rfl⟩
  case bytes =>
    change (s.polledByte b).input.dropPoll.drop.bytes = rest
    rw [InputSource.drop_bytes, InputSource.dropPoll_bytes, hbytes', List.tail_cons]

theorem InputSource.ready_of_next {i : InputSource} {b : Byte} (h : i.next = some b) :
    i.ready = i.answer := by
  rw [InputSource.ready, h, Option.isSome_some, Bool.and_true]

/-- Settles O23: with a next byte, "ready" is the host's answer. -/
theorem pollIsTruthful : Obligations.PollIsTruthful := by
  unfold Obligations.PollIsTruthful
  exact fun i => ⟨InputSource.next_of_ready,
    fun _ _ _ hb hp => (InputSource.ready_of_next hb).trans (InputSource.answer_of_polls_cons hp),
    fun _ hb hp => (InputSource.ready_of_next hb).trans (InputSource.answer_of_polls_nil hp)⟩

/-! ### The cycle -/

theorem step_of_running {s : State} (h : s.run = .running) :
    step s = exec (decode (s.memRead s.pc).1) ((s.memRead s.pc).2.setPc (s.pc + 1)) := by
  rw [← State.fetch_state, step, h]
  rfl

/-- Away from `KBSR_ADDR` a cycle runs the stored word. -/
theorem step_of_running_plain {s : State} (h : s.run = .running) (hpc : s.pc ≠ s.cfg.kbsrAddr) :
    step s = exec (decode (s.cell s.pc)) (s.setPc (s.pc + 1)) := by
  rw [step_of_running h, State.memRead_plain hpc]

/-- Settles O7, from the cycle of the running machine. -/
theorem stepRunsDecodedInstruction : Obligations.StepRunsDecodedInstruction := by
  unfold Obligations.StepRunsDecodedInstruction
  exact fun s h => ⟨step_of_running h, step_of_running_plain h⟩

/-- Settles O9, by the run state. -/
theorem terminalStatesHaveNoStep : Obligations.TerminalStatesHaveNoStep := by
  unfold Obligations.TerminalStatesHaveNoStep
  intro s
  refine ⟨fun h => ?halted, fun c h => ?faulted⟩
  case halted => rw [step, h]
  case faulted => rw [step, h]

/-- The BR that tests no flag never branches (R120). -/
theorem exec_nop (s : State) : exec .nop s = .next s := by
  have hnever : branchTaken false false false s.cond = false := by
    cases s.cond with
    | n | z | p => rfl
  rw [exec_br, hnever]
  rfl

/-- Settles O8: a fetch that finds a byte runs the word 0x8000, RTI, and one that finds none the word
0x0000, NOP. -/
theorem fetchFromStatusAddress : Obligations.FetchFromStatusAddress := by
  unfold Obligations.FetchFromStatusAddress
  intro s hrun hpc hwf
  have hrti : decode 0x8000 = .rti := by decide
  have hnop : decode 0x0000 = Instr.nop := by decide
  rw [step_of_running hrun, hpc]
  refine ⟨fun hready => ?ready, fun hready => ?notReady⟩
  case ready =>
    obtain ⟨b, hb⟩ := InputSource.next_of_ready hready
    obtain ⟨hkbsr, hkbdr, hcells⟩ := State.polledByte_cells hwf b
    rw [State.memRead_of_ready hwf hready hb, hrti, exec_rti]
    exact ⟨_, rfl, rfl, rfl, hkbsr, ⟨b, hb, hkbdr⟩, rfl, rfl, rfl, rfl, hcells⟩
  case notReady =>
    obtain ⟨hkbsr, hcells⟩ := s.polledNone_cells
    rw [State.memRead_of_not_ready hready, hnop, exec_nop]
    exact ⟨_, rfl, hrun, rfl, hkbsr, rfl, rfl, rfl, rfl, hcells⟩

/-- A store to the cell at `pc` is what the next cycle runs (R65). -/
theorem step_memWrite_pc {s : State} (hrun : s.run = .running) (hpc : s.pc ≠ s.cfg.kbsrAddr)
    (v : Word) : step (s.memWrite s.pc v) = exec (decode v) ((s.memWrite s.pc v).setPc (s.pc + 1)) := by
  have hcell : (s.memWrite s.pc v).cell s.pc = v := s.cell_setCell_same s.pc v
  have hstep := step_of_running_plain (s := s.memWrite s.pc v) hrun hpc
  change step (s.memWrite s.pc v) =
    exec (decode ((s.memWrite s.pc v).cell s.pc)) ((s.memWrite s.pc v).setPc (s.pc + 1)) at hstep
  rwa [hcell] at hstep

/-- Settles O11: each of the three ends in a write to the cell at `pc`, STI in the state that the read of
its pointer leaves, whose `pc` is the same. -/
theorem storeSeenByNextFetch : Obligations.StoreSeenByNextFetch := by
  unfold Obligations.StoreSeenByNextFetch
  intro s hrun hpc
  refine ⟨fun sr off hea => ⟨_, exec_st sr off s, ?st⟩,
    fun sr off hptr => ⟨_, exec_sti sr off s, ?sti⟩,
    fun sr base off hea => ⟨_, exec_str sr base off s, ?str⟩⟩
  case st =>
    rw [hea]
    exact step_memWrite_pc hrun hpc _
  case sti =>
    have hnext := step_memWrite_pc (s := (s.memRead (s.pcRel9 off)).2) (by rw [State.memRead_run, hrun])
      (by rwa [State.memRead_pc, State.memRead_cfg]) (s.reg sr)
    rw [hptr]
    rwa [State.memRead_pc] at hnext
  case str =>
    rw [hea]
    exact step_memWrite_pc hrun hpc _

end Sys2Proof.Machine
end

section
/-! PROOFS. GETC, IN, HALT, the unrecognised TRAP and JSRR (R123, R152, R155, R157, R158, R194, R208): what
each answers on the input source and the sink it meets. All of them start with the link, whose frame
gives everything they leave unchanged. -/

namespace Sys2Proof

theorem decode_of_vector {w : Word} {v : BitVec 8} (hop : w.extractLsb' 12 4 = 0xF)
    (hvector : w.extractLsb' 0 8 = v) : decode w = decodeTrap v := by
  rw [decode_of_trap hop, hvector]

end Sys2Proof

namespace Sys2Proof.Machine

/-! ### The console operations -/

theorem State.readThen_byte {s : State} {b : Byte} (h : s.input.next = some b)
    (cont : Byte → State → Result) : s.readThen cont = cont b (s.setInput s.input.drop) := by
  rw [State.readThen, InputSource.read, h]

theorem State.readThen_waits {s : State} (hbytes : s.input.bytes = []) (hend : s.input.ending = .waits)
    (cont : Byte → State → Result) : s.readThen cont = .fault .waitsForInput := by
  obtain ⟨hnext, -⟩ := InputSource.delivers_nothing hbytes (.inr hend)
  rw [State.readThen, InputSource.read, hnext, hend]
  rfl

theorem State.readThen_closed {s : State} (hbytes : s.input.bytes = [])
    (hend : s.input.ending = .closed) (cont : Byte → State → Result) :
    s.readThen cont = .next (s.raiseFault .ioFault) := by
  obtain ⟨hnext, -⟩ := InputSource.delivers_nothing hbytes (.inl hend)
  rw [State.readThen, InputSource.read, hnext, hend]
  rfl

/-- A sink that is too short takes what fits, and the I/O fault follows (R191, R194). -/
theorem State.writeThen_short {s : State} {bs : List Byte} {n : Nat} (cont : State → Result)
    (hroom : s.output.room = some n) (hshort : n < bs.length) :
    s.writeThen bs cont = .next ((s.setOutput
      { written := s.output.written ++ bs.take n, room := some 0 }).raiseFault .ioFault) := by
  rw [State.writeThen, OutputSink.writeAll_short hroom hshort]

/-- Room for `m + n` bytes is room for `m`, and then for `n` more. -/
theorem OutputSink.accepts_add {o : OutputSink} {m n : Nat} (h : o.accepts (m + n) = true)
    (w : List Byte) : o.accepts m = true ∧
      ({ written := w, room := o.room.map (· - m) } : OutputSink).accepts n = true := by
  unfold OutputSink.accepts at h ⊢
  cases hroom : o.room with
  | none => exact ⟨rfl, rfl⟩
  | some k =>
    have hk : m + n ≤ k := by simpa [hroom] using h
    exact ⟨decide_eq_true (by omega), decide_eq_true (by simp; omega)⟩

theorem exec_getc (s : State) :
    exec .getc s = s.link.readThen fun b t => .next (t.setReg .r0 (zext8 b)) := rfl

/-- The machine after IN has written the prompt to a sink with room for it. -/
def State.prompted (s : State) : State :=
  s.link.setOutput { written := s.output.written ++ s.cfg.inPrompt,
                     room := s.output.room.map (· - s.cfg.inPrompt.length) }

/-- The rest of IN: the echo of the byte, and then R0. -/
def State.echo (b : Byte) (s : State) : Result :=
  s.writeThen [b] fun t => .next (t.setReg .r0 (zext8 b))

theorem exec_inChar (s : State) :
    exec .inChar s = s.link.writeThen s.cfg.inPrompt fun t => t.readThen State.echo := rfl

theorem exec_inChar_of_room {s : State} (h : s.output.accepts s.cfg.inPrompt.length = true) :
    exec .inChar s = s.prompted.readThen State.echo :=
  (exec_inChar s).trans (State.writeThen_accepts (s := s.link) _ h)

theorem exec_inChar_of_byte {s : State} {b : Byte} (h : s.output.accepts s.cfg.inPrompt.length = true)
    (hb : s.input.next = some b) :
    exec .inChar s = (s.prompted.setInput s.input.drop).echo b :=
  (exec_inChar_of_room h).trans (State.readThen_byte (s := s.prompted) hb _)

/-! ### The instructions -/

/-- The registers after the link and a byte read into R0. -/
theorem State.link_setR0_frame (s : State) (b : Byte) :
    ((s.link.setReg .r0 (zext8 b)).reg .r0).toNat = b.toNat ∧
      (s.link.setReg .r0 (zext8 b)).reg .r7 = s.pc ∧
      SameRegsExcept [.r0, .r7] s (s.link.setReg .r0 (zext8 b)) := by
  obtain ⟨hlink, hregs, -⟩ := s.link_frame
  refine ⟨?_, (s.link.reg_setReg_other _ (by decide)).trans hlink, fun r hr => ?_⟩
  · rw [State.reg_setReg_same, zext8_toNat]
  · obtain ⟨hr0, hr7⟩ := List.ne_and_not_mem_of_not_mem_cons hr
    exact (s.link.reg_setReg_other _ hr0).trans (hregs r hr7)

/-- Settles O41: with a byte to come the read takes it, and what stays is what the link and R0 leave. -/
theorem getcReadsOneByte : Obligations.GetcReadsOneByte := by
  unfold Obligations.GetcReadsOneByte
  refine ⟨fun _ => decode_of_vector, fun s b hb => ?meaning⟩
  case meaning =>
    have hexec := (exec_getc s).trans (State.readThen_byte (s := s.link) hb _)
    obtain ⟨hr0, hlink, hregs⟩ := s.link_setR0_frame b
    exact ⟨_, hexec, hr0, hlink, hregs, rfl, rfl, rfl, rfl, fun _ _ => rfl, rfl, rfl⟩

/-- Settles O42: on a source with no byte the read waits or is the I/O fault, in IN after the prompt. -/
theorem consoleReadWaitsOrFails : Obligations.ConsoleReadWaitsOrFails := by
  unfold Obligations.ConsoleReadWaitsOrFails
  intro s hbytes
  obtain ⟨hlink, hregs, -⟩ := s.link_frame
  refine ⟨fun hend => ⟨?getcWaits, fun hroom => ?inWaits⟩,
    fun hend => ⟨?getcFails, fun hroom => ?inFails⟩⟩
  case getcWaits => exact (exec_getc s).trans (State.readThen_waits (s := s.link) hbytes hend _)
  case inWaits =>
    exact (exec_inChar_of_room hroom).trans (State.readThen_waits (s := s.prompted) hbytes hend _)
  case getcFails =>
    have hexec := (exec_getc s).trans (State.readThen_closed (s := s.link) hbytes hend _)
    exact ⟨_, hexec, rfl, hlink, hregs, rfl, rfl, rfl, rfl, fun _ _ => rfl, rfl⟩
  case inFails =>
    have hexec :=
      (exec_inChar_of_room hroom).trans (State.readThen_closed (s := s.prompted) hbytes hend _)
    exact ⟨_, hexec, rfl, hlink, hregs, rfl, rfl, rfl, rfl, fun _ _ => rfl, rfl⟩

/-- Settles O47: the room of the sink decides how far IN comes: into the prompt, to the echo, or to its
end. -/
theorem inPromptsReadsEchoes : Obligations.InPromptsReadsEchoes := by
  unfold Obligations.InPromptsReadsEchoes
  refine ⟨fun _ => decode_of_vector, fun s n hroom hshort => ?promptFails, fun s b hb =>
    ⟨fun hroom => ?completes, fun hroom => ?echoFails⟩⟩
  case promptFails =>
    obtain ⟨hlink, hregs, -⟩ := s.link_frame
    have hexec := (exec_inChar s).trans (State.writeThen_short (s := s.link) _ hroom hshort)
    exact ⟨_, hexec, rfl, rfl, rfl, hlink, hregs, rfl, rfl, fun _ _ => rfl, rfl⟩
  case completes =>
    obtain ⟨hprompt, hecho⟩ := OutputSink.accepts_add hroom (s.output.written ++ s.cfg.inPrompt)
    have hexec := (exec_inChar_of_byte hprompt hb).trans
      (State.writeThen_accepts (s := s.prompted.setInput s.input.drop) _ hecho)
    obtain ⟨hr0, hlink, hregs⟩ := s.link_setR0_frame b
    exact ⟨_, hexec, rfl, hr0, hlink, hregs, rfl, rfl, rfl, fun _ _ => rfl, rfl, rfl⟩
  case echoFails =>
    have hprompt : s.output.accepts s.cfg.inPrompt.length = true := by simp [OutputSink.accepts, hroom]
    have hfull : s.prompted.output.room = some 0 := by simp [State.prompted, hroom]
    have hexec := (exec_inChar_of_byte hprompt hb).trans
      (State.writeThen_unavailable (s := s.prompted.setInput s.input.drop) b [] _ hfull)
    obtain ⟨hlink, hregs, -⟩ := s.link_frame
    exact ⟨_, hexec, rfl, rfl, rfl, hlink, hregs, rfl, rfl, fun _ _ => rfl, rfl⟩

/-- Settles O48: HALT is the link and `HALTED`. -/
theorem haltEntersHalted : Obligations.HaltEntersHalted := by
  unfold Obligations.HaltEntersHalted
  refine ⟨fun _ => decode_of_vector, fun s => ?meaning⟩
  case meaning =>
    obtain ⟨hlink, hregs, -⟩ := s.link_frame
    exact ⟨s.link.enterHalted, rfl, rfl, hlink, hregs, rfl, rfl, fun _ _ => rfl, ⟨rfl, rfl⟩, rfl⟩

/-- Settles O49: no routine has an unrecognised vector, and its TRAP is the link and the fault. -/
theorem unrecognisedVectorFaults : Obligations.UnrecognisedVectorFaults := by
  unfold Obligations.UnrecognisedVectorFaults
  refine ⟨fun w hop hvector => ?encoding, fun v s => ?meaning⟩
  case encoding =>
    rw [decode_of_trap hop]
    exact decodeTrap_of_not_recognised ((recognisedVector_eq_false_iff _).mpr hvector)
  case meaning =>
    obtain ⟨hlink, hregs, -⟩ := s.link_frame
    exact ⟨s.link.raiseFault .badTrapVector, rfl, rfl, hlink, hregs, rfl, rfl, fun _ _ => rfl,
      ⟨rfl, rfl⟩, rfl⟩

/-- Settles O33: the base is read after the link is written, so R7 gives the link. -/
theorem jsrrLinksThenReadsBase : Obligations.JsrrLinksThenReadsBase := by
  unfold Obligations.JsrrLinksThenReadsBase
  refine ⟨fun w hop h11 => ?encoding, fun base s => ?meaning⟩
  case encoding =>
    exact ⟨_, (decode_of_jsr hop).trans (if_neg (Bool.eq_false_iff.mp h11)), toBits_regB w⟩
  case meaning =>
    exact ⟨s.link.setPc (s.link.reg base), rfl, s.reg_link_r7, fun h => h ▸ s.reg_link_r7,
      fun h => s.reg_link_other h, s.link_setPc_frame _⟩

end Sys2Proof.Machine
end

section
/-! PROOFS. PUTS and PUTSP on a string that polls nothing (R154, R156, R191), when they end (R180), and
when they never do: consequences of what `State.print` answers of any text. -/

namespace Sys2Proof.Machine

/-! ### Strings that poll nothing -/

/-- A string is a text whose reading changes nothing, so the routine changes no cell and takes no
input. -/
theorem State.print_of_string {f : Word → List Byte} {cs : List Word} {s : State}
    (hstring : s.HasString (s.reg .r0) cs) (hroom : s.output.accepts (cs.flatMap f).length = true) :
    ∃ t, s.print f = .next t ∧ t.output.written = s.output.written ++ cs.flatMap f ∧
      t.reg .r7 = s.pc ∧ SameRegsExcept [.r7] s t ∧ t.input = s.input ∧ t.cond = s.cond ∧
      t.pc = s.pc ∧ SameCellsExcept [] s t ∧ SameControl s t := by
  obtain ⟨t, hprint, hwritten, hmem, hinput, hlink, hregs, hcond, hpc, hcontrol⟩ :=
    State.print_of_text hstring.text hroom
  exact ⟨t, hprint, hwritten, hlink, hregs, hinput, hcond, hpc, .of_mem_eq hmem, hcontrol⟩

/-- Settles O44: PUTS writes one byte of each word of the string. -/
theorem putsWritesString : Obligations.PutsWritesString := by
  unfold Obligations.PutsWritesString
  refine ⟨fun _ => decode_of_vector, fun s cs hstring hroom => ?meaning⟩
  case meaning =>
    rw [← flatMap_putsBytes, exec_puts]
    exact State.print_of_string hstring (by rwa [length_flatMap_putsBytes])

/-- Settles O45: PUTSP writes the bytes of `putspBytes` of each word of the string. -/
theorem putspWritesPackedString : Obligations.PutspWritesPackedString := by
  unfold Obligations.PutspWritesPackedString
  refine ⟨fun _ => decode_of_vector, fun s cs => ?meaning⟩
  case meaning =>
    rw [← putspBytes_eq, exec_putsp]
    exact State.print_of_string

/-- Settles O46: a string is a text, and a sink too short for a text takes what fits. -/
theorem printSinkFailureKeepsPrefix : Obligations.PrintSinkFailureKeepsPrefix := by
  unfold Obligations.PrintSinkFailureKeepsPrefix
  intro s cs n hstring hroom
  rw [← putspBytes_eq, ← flatMap_putsBytes, ← length_flatMap_putsBytes, exec_puts, exec_putsp]
  exact ⟨State.print_short hstring.text hroom, State.print_short hstring.text hroom⟩

/-! ### Whether there is an end -/

theorem putsBytes_ne_nil (w : Word) : putsBytes w ≠ [] := List.cons_ne_nil _ _

theorem putspBytes_ne_nil (w : Word) : putspBytes w ≠ [] := by
  rw [putspBytes_eq]
  exact List.cons_ne_nil _ _

/-- A routine that writes something of every word ends where some text does, or on a bounded sink. -/
theorem State.print_ends {f : Word → List Byte} (hf : ∀ w, f w ≠ []) {s : State}
    (h : ¬ s.EndlessText ∨ s.output.room ≠ none) :
    ∃ t, s.print f = .next t ∧ (t.run = s.run ∨ t.run = .faulted .ioFault) := by
  obtain ⟨t, ht⟩ := stringLoop_ends hf (a := s.reg .r0) (s := s.link) h
  exact ⟨t, ht, (stringLoop_next ht).2⟩

/-- Settles O52: both routines write at least one byte of every word. -/
theorem printRoutinesEnd : Obligations.PrintRoutinesEnd := by
  unfold Obligations.PrintRoutinesEnd
  exact fun s h => ⟨State.print_ends putsBytes_ne_nil h, State.print_ends putspBytes_ne_nil h⟩

/-- Where no text ends and the sink never fails, the loop reads words until its bound. -/
theorem State.print_never_ends {f : Word → List Byte} {s : State} (hendless : s.EndlessText)
    (hkbdr : s.cfg.kbdrAddr = s.cfg.kbsrAddr ∨ s.cell s.cfg.kbdrAddr ≠ 0)
    (hroom : s.output.room = none) : s.print f = .fault .stringNeverEnds := by
  obtain ⟨cs, u, -, htext⟩ | ⟨cs, u, hlen, hwords⟩ :=
    text_or_words s.link.stringFuel (s.reg .r0) s.link
  · obtain ⟨hzero, hne, -⟩ := htext.zero_of_endless hendless
    obtain heq | hnonzero := hkbdr
    · exact absurd heq hne
    · exact absurd hzero hnonzero
  · have haccepts : s.link.output.accepts (cs.flatMap f).length = true := by
      simp [OutputSink.accepts, hroom]
    have hloop := stringLoop_of_words (n := 0) hwords haccepts
    rwa [Nat.zero_add, hlen, stringLoop] at hloop

/-- Settles O53, for any bytes of a word. -/
theorem endlessStringNeverEnds : Obligations.EndlessStringNeverEnds := by
  unfold Obligations.EndlessStringNeverEnds
  exact fun s hendless hkbdr hroom =>
    ⟨State.print_never_ends hendless hkbdr hroom, State.print_never_ends hendless hkbdr hroom⟩

end Sys2Proof.Machine
end

section
/-! PROOFS. The machine at reset and at the start of a run (R38, R220, R223), the operand forms (R85, R134),
and the words of the test vectors. -/

namespace Sys2Proof.Machine

/-! ### Reset and loading -/

/-- Settles O12: the machine starts over an empty memory with the defaults. -/
theorem resetState : Obligations.ResetState := by
  unfold Obligations.ResetState
  exact ⟨State.start_reg _ _ _ _ _, rfl, rfl, rfl, fun a => Memory.read_nil a.toNat, rfl, rfl, rfl, rfl,
    rfl, rfl⟩

/-- Settles O16: nothing is listed in memory, and the default device addresses differ. -/
theorem resetMeetsInvariant : Obligations.ResetMeetsInvariant := by
  unfold Obligations.ResetMeetsInvariant
  exact ⟨rfl, by decide⟩

theorem State.boot_of_overflow {g : Image} (cfg : Config) (m : Memory) (inp : InputSource)
    (room : Option Nat) (h : 65536 < g.origin.toNat + g.words.length) :
    State.boot cfg m g inp room = .error .overflow :=
  if_neg (mt of_decide_eq_true (Nat.not_le.mpr h))

/-- Settles O14, for any memory and console. -/
theorem overflowingImageRefused : Obligations.OverflowingImageRefused := by
  unfold Obligations.OverflowingImageRefused
  exact fun cfg m _ inp room => State.boot_of_overflow cfg m inp room

/-- Settles O17: an image that loads fits, and placing words in the address space keeps the canonical
form. -/
theorem bootMeetsInvariant : Obligations.BootMeetsInvariant := by
  unfold Obligations.BootMeetsInvariant
  intro cfg m g inp room s hcfg hmem hboot
  by_cases hfits : g.origin.toNat + g.words.length ≤ 65536
  · rw [State.boot_of_fits cfg m inp room hfits] at hboot
    obtain rfl := Except.ok.inj hboot
    exact ⟨Memory.wf_place hfits hmem, hcfg⟩
  · rw [State.boot_of_overflow cfg m inp room (Nat.not_le.mp hfits)] at hboot
    cases hboot

/-! ### Operands -/

/-- Settles O5: every width is at most 16, and all effective addresses add a sign-extended operand. -/
theorem operandsSignExtend : Obligations.OperandsSignExtend := by
  unfold Obligations.OperandsSignExtend
  exact ⟨fun v => toInt_sext v (by decide), fun v => toInt_sext v (by decide),
    fun v => toInt_sext v (by decide), fun v => toInt_sext v (by decide),
    fun s off => toNat_add_sext s.pc off (by decide), fun s off => toNat_add_sext s.pc off (by decide),
    fun s base off => toNat_add_sext (s.reg base) off (by decide)⟩

/-- Settles O1, by running the decoder on the twelve words. -/
theorem decodeSpecWords : Obligations.DecodeSpecWords := by
  unfold Obligations.DecodeSpecWords
  decide

end Sys2Proof.Machine
end

section
/-! PROOFS. The core never reads the output sink (R35): writing bytes beforehand, to the state before an
instruction or to the one it answers, is the same. -/

namespace Sys2Proof.Machine

/-- A result, the next state having `p` written to its output beforehand. -/
def Result.withEarlierOutput (p : List Byte) : Result → Result
  | .next t => .next (t.withEarlierOutput p)
  | .fault f => .fault f
  | .refused r => .refused r

/-- A meaning that does not look at what was written before. -/
def IgnoresEarlierOutput (p : List Byte) (meaning : State → Result) : Prop :=
  ∀ s : State, meaning (s.withEarlierOutput p) = Result.withEarlierOutput p (meaning s)

/-- The sink with `p` written to it beforehand. -/
def OutputSink.withEarlier (o : OutputSink) (p : List Byte) : OutputSink :=
  { o with written := p ++ o.written }

theorem State.withEarlierOutput_eq (s : State) (p : List Byte) :
    s.withEarlierOutput p = s.setOutput (s.output.withEarlier p) := rfl

/-! ### Operations -/

theorem OutputSink.write_withEarlier (o : OutputSink) (p : List Byte) (b : Byte) :
    (o.withEarlier p).write b = (o.write b).map (·.withEarlier p) := by
  obtain ⟨w, room⟩ := o
  match room with
  | none => simp [OutputSink.write, OutputSink.withEarlier]
  | some 0 => rfl
  | some (k + 1) => simp [OutputSink.write, OutputSink.withEarlier]

theorem OutputSink.writeAll_withEarlier (o : OutputSink) (p bs : List Byte) :
    (o.withEarlier p).writeAll bs = ((o.writeAll bs).1, (o.writeAll bs).2.withEarlier p) := by
  induction bs generalizing o with
  | nil => rfl
  | cons b bs ih =>
    rw [OutputSink.writeAll, OutputSink.writeAll, OutputSink.write_withEarlier]
    cases o.write b with
    | none => rfl
    | some o' => exact ih o'

theorem State.memRead_withEarlierOutput (s : State) (p : List Byte) (a : Word) :
    (s.withEarlierOutput p).memRead a = ((s.memRead a).1, (s.memRead a).2.withEarlierOutput p) := by
  rw [State.withEarlierOutput_eq, State.memRead_setOutput, State.withEarlierOutput_eq,
    State.memRead_output]

section
variable {p : List Byte}

theorem writeThen_ignoresEarlierOutput (bs : List Byte) {cont : State → Result}
    (hcont : IgnoresEarlierOutput p cont) : IgnoresEarlierOutput p fun s => s.writeThen bs cont := by
  intro s
  have hwrite : (s.withEarlierOutput p).output.writeAll bs = _ := s.output.writeAll_withEarlier p bs
  simp only [State.writeThen, hwrite]
  obtain ⟨ok, o⟩ := s.output.writeAll bs
  cases ok with
  | true => exact hcont (s.setOutput o)
  | false => rfl

theorem readThen_ignoresEarlierOutput {cont : Byte → State → Result}
    (hcont : ∀ b, IgnoresEarlierOutput p (cont b)) :
    IgnoresEarlierOutput p fun s => s.readThen cont := by
  intro s
  simp only [State.readThen, State.withEarlierOutput_input]
  cases s.input.read with
  | byte b i => exact hcont b (s.setInput i)
  | fails => rfl
  | waits => rfl

/-- A meaning after a read. -/
theorem memRead_ignoresEarlierOutput (a : Word) {cont : Word → State → Result}
    (hcont : ∀ v, IgnoresEarlierOutput p (cont v)) :
    IgnoresEarlierOutput p fun s => cont (s.memRead a).1 (s.memRead a).2 := by
  intro s
  simp only [State.memRead_withEarlierOutput]
  exact hcont _ _

theorem stringLoop_ignoresEarlierOutput (f : Word → List Byte) (n : Nat) (a : Word) :
    IgnoresEarlierOutput p (stringLoop f n a) := by
  induction n generalizing a with
  | zero => exact fun _ => rfl
  | succ n ih =>
    intro s
    rw [stringLoop, stringLoop, State.memRead_withEarlierOutput]
    split
    · rfl
    · exact writeThen_ignoresEarlierOutput _ (ih (a + 1)) _

theorem print_ignoresEarlierOutput (f : Word → List Byte) :
    IgnoresEarlierOutput p fun s => s.print f :=
  fun s => stringLoop_ignoresEarlierOutput f s.link.stringFuel (s.reg .r0) s.link

theorem loadFrom_ignoresEarlierOutput (dr : Reg) (ea : Word) :
    IgnoresEarlierOutput p fun s => .next (s.loadFrom dr ea) :=
  memRead_ignoresEarlierOutput ea (cont := fun v s => .next (s.writeResult dr v)) fun _ _ => rfl

/-! ### Instructions and steps -/

theorem exec_ignoresEarlierOutput (i : Instr) : IgnoresEarlierOutput p (exec i) := by
  intro s
  cases i with
  | br n z p off =>
    rw [exec_br, exec_br]
    rfl
  | ld dr off => exact loadFrom_ignoresEarlierOutput dr (s.pcRel9 off) s
  | ldr dr base off => exact loadFrom_ignoresEarlierOutput dr (s.baseOff base off) s
  | ldi dr off =>
    exact memRead_ignoresEarlierOutput (s.pcRel9 off) (cont := fun v s => .next (s.loadFrom dr v))
      (fun v => loadFrom_ignoresEarlierOutput dr v) s
  | sti sr off =>
    exact memRead_ignoresEarlierOutput (s.pcRel9 off)
      (cont := fun v t => .next (t.memWrite v (s.reg sr))) (fun _ _ => rfl) s
  | getc =>
    exact readThen_ignoresEarlierOutput (cont := fun b t => .next (t.setReg .r0 (zext8 b)))
      (fun _ _ => rfl) s.link
  | out => exact writeThen_ignoresEarlierOutput [lowByte (s.reg .r0)] (fun _ => rfl) s.link
  | inChar =>
    exact writeThen_ignoresEarlierOutput s.cfg.inPrompt
      (readThen_ignoresEarlierOutput fun b => writeThen_ignoresEarlierOutput [b] fun _ => rfl) s.link
  | puts => exact print_ignoresEarlierOutput putsBytes s
  | putsp => exact print_ignoresEarlierOutput putspBytes s
  | _ => rfl

theorem step_ignoresEarlierOutput : IgnoresEarlierOutput p step := by
  intro s
  cases hrun : s.run with
  | running =>
    rw [step_of_running hrun, step_of_running (s := s.withEarlierOutput p) hrun,
      State.memRead_withEarlierOutput]
    exact exec_ignoresEarlierOutput _ ((s.memRead s.pc).2.setPc (s.pc + 1))
  | halted | faulted =>
    rw [step, step, State.withEarlierOutput_run, hrun]
    rfl

end

/-- Settles O58: a step answers the same, with the bytes written beforehand. -/
theorem earlierOutputUnobservable : Obligations.EarlierOutputUnobservable := by
  unfold Obligations.EarlierOutputUnobservable
  intro p s
  refine ⟨fun t ht => ?next, fun f hf => ?fault⟩
  case next =>
    rw [step_ignoresEarlierOutput, ht]
    rfl
  case fault =>
    rw [step_ignoresEarlierOutput, hf]
    rfl

end Sys2Proof.Machine
end
